-- ==== Sys2Proof/Word.lean ====
section
/-! DEFINITION. The element types of the machine: bits, bytes, command words and valid modes. -/

namespace Sys2Proof

/-- A bit, "an integer 0 or 1" (spec/00_scope.md R13): `false` is 0, `true` is 1, XOR is `^^`. -/
abbrev Bit := Bool

/-- An element of `MSG`: 8 bits, value 0..255 (spec/20_memory.md R50). -/
abbrev Byte := BitVec 8

/-- A command word (spec/30_encoding.md R80). -/
abbrev Command := BitVec 32

/-- A mode the parity layout calculator is defined for, `mode >= 1`: "A model gives `parityCount` the domain `mode >= 1`
(a subtype or a precondition)" (spec/40_layout.md R104). -/
abbrev Mode := { m : Nat // 1 ≤ m }

end Sys2Proof
end

