-- ==== Sys2Proof/Syntax.lean ====
section
/-! DEFINITION. The twelve operations of spec/30_encoding.md R81, the two ways a word is illegal (R85) and the two
pseudo-operations of R89. -/

namespace Sys2Proof

/-- One constructor per row of spec/opcode_table.json. The operand of `setmode`, `encode` and `decode` is the signed
mode of R82, already sign-extended. -/
inductive Instr
  /-- `SETMODE mode`, spec/40_layout.md R110. -/
  | setmode (mode : Int)
  /-- `UNPACK`, spec/43_block_codec.md R170. -/
  | unpack
  /-- `LDCHUNK`, spec/43_block_codec.md R171. -/
  | ldchunk
  /-- `SYNW`, spec/41_syndrome_engine.md R132. -/
  | synw
  /-- `STBLK`, spec/43_block_codec.md R172. -/
  | stblk
  /-- `LDBLK`, spec/43_block_codec.md R173. -/
  | ldblk
  /-- `SYNR`, spec/41_syndrome_engine.md R133. -/
  | synr
  /-- `CORR`, spec/42_selector_inverter.md R146. -/
  | corr
  /-- `STRIP`, spec/43_block_codec.md R174. -/
  | strip
  /-- `PACK`, spec/43_block_codec.md R175. -/
  | pack
  /-- `ENCODE mode`, spec/43_block_codec.md R176. -/
  | encode (mode : Int)
  /-- `DECODE mode`, spec/43_block_codec.md R177. -/
  | decode (mode : Int)
deriving DecidableEq, Repr

/-- Why the decoder refuses a word (spec/30_encoding.md R85). Both reasons make the engine raise `IllegalCommand`. -/
inductive Illegal
  /-- R85 (a): `op` is 0x0, 0xD, 0xE or 0xF. -/
  | reservedOp (op : BitVec 4)
  /-- R85 (b): `op` is one of 0x2..0xA and `imm` is not zero. -/
  | nonZeroImm (op : BitVec 4) (imm : BitVec 28)
deriving DecidableEq, Repr

/-- The assembler's pseudo-operations (spec/30_encoding.md R89); they have no words of their own. -/
inductive Pseudo
  /-- `ENCBLK`: encode one block. -/
  | encblk
  /-- `DECBLK`: decode one block. -/
  | decblk
deriving DecidableEq, Repr

end Sys2Proof
end

