-- ==== Sys2Proof/WellFormed.lean ====
section
/-! DEFINITION. Which instructions a command word can express: the operand must fit the signed 28-bit field
(spec/30_encoding.md R82). -/

namespace Sys2Proof

/-- The representable range of the mode operand, `-2^27 .. 2^27 - 1` (R82). -/
abbrev modeFits (mode : Int) : Bool := decide (-134217728 ≤ mode) && decide (mode ≤ 134217727)

/-- The one check of the syntax: an operand, where there is one, is representable. -/
def Instr.wellFormed : Instr → Bool
  | .setmode mode => modeFits mode
  | .unpack => true
  | .ldchunk => true
  | .synw => true
  | .stblk => true
  | .ldblk => true
  | .synr => true
  | .corr => true
  | .strip => true
  | .pack => true
  | .encode mode => modeFits mode
  | .decode mode => modeFits mode

end Sys2Proof
end

