-- ==== Sys2Proof/Decode.lean ====
section
/-! DEFINITION. The command word: its fields, the total decoder, the encoder (spec/30_encoding.md R80 to R89). -/

namespace Sys2Proof

/-- `op = bits[31:28]` (R80). -/
def opField (w : Command) : BitVec 4 := w.extractLsb' 28 4

/-- `imm = bits[27:0]` (R80). -/
def immField (w : Command) : BitVec 28 := w.extractLsb' 0 28

/-- `sext_28(v)`: `v` when `v < 2^27`, else `v - 2^28` (R82, spec/00_scope.md R15). -/
def sext28 (v : BitVec 28) : Int :=
  if v.toNat < 134217728 then (v.toNat : Int) else (v.toNat : Int) - 268435456

/-- An operation without operand: `imm` must be zero (R85 (b)). -/
def noOperand (w : Command) (i : Instr) : Except Illegal Instr :=
  if immField w = 0#28 then .ok i else .error (.nonZeroImm (opField w) (immField w))

/-- `decode(w)` (R86): total, every word is one of the twelve operations or illegal by a named reason. -/
def decode (w : Command) : Except Illegal Instr :=
  match (opField w).toNat with
  | 1 => .ok (.setmode (sext28 (immField w)))
  | 2 => noOperand w .unpack
  | 3 => noOperand w .ldchunk
  | 4 => noOperand w .synw
  | 5 => noOperand w .stblk
  | 6 => noOperand w .ldblk
  | 7 => noOperand w .synr
  | 8 => noOperand w .corr
  | 9 => noOperand w .strip
  | 10 => noOperand w .pack
  | 11 => .ok (.encode (sext28 (immField w)))
  | 12 => .ok (.decode (sext28 (immField w)))
  | _ => .error (.reservedOp (opField w))

/-- The `imm` field of a mode operand: "operand mod 2^28" (R88). -/
def immOfMode (mode : Int) : BitVec 28 := BitVec.ofInt 28 mode

/-- The word with the given `op` and `imm` (R80). -/
def commandWord (op : BitVec 4) (imm : BitVec 28) : Command := op ++ imm

/-- The word of an instruction: "the row's match with imm = operand mod 2^28" (R88, R81). -/
def encode : Instr → Command
  | .setmode mode => commandWord 0x1#4 (immOfMode mode)
  | .unpack => commandWord 0x2#4 0#28
  | .ldchunk => commandWord 0x3#4 0#28
  | .synw => commandWord 0x4#4 0#28
  | .stblk => commandWord 0x5#4 0#28
  | .ldblk => commandWord 0x6#4 0#28
  | .synr => commandWord 0x7#4 0#28
  | .corr => commandWord 0x8#4 0#28
  | .strip => commandWord 0x9#4 0#28
  | .pack => commandWord 0xA#4 0#28
  | .encode mode => commandWord 0xB#4 (immOfMode mode)
  | .decode mode => commandWord 0xC#4 (immOfMode mode)

/-- The expansion of a pseudo-operation (R89). -/
def Pseudo.expand : Pseudo → List Instr
  | .encblk => [.ldchunk, .synw, .stblk]
  | .decblk => [.ldblk, .synr, .corr, .strip]

/-- The decoder on a word numbered as spec/opcode_table.json numbers it: bit 0 the least significant, bits from `nbits`
up zero. A command word is a value of 32 bits and lies in no memory (spec/20_memory.md R50, R68), so no byte order
enters. -/
def decodeTableWord (nbits w : Nat) : Option Instr :=
  (decode (BitVec.ofNat 32 (w % 2 ^ nbits))).toOption

end Sys2Proof
end

