-- ==== Sys2Proof/Machine/Bits.lean ====
section
/-! DEFINITION. Sequences and bit order: the named accesses to a space (spec/00_scope.md R16), bytes and bits
(spec/20_memory.md R55 to R57), positions of a block (spec/00_scope.md R14). -/

namespace Sys2Proof.Machine

/-- `ceildiv(a, b) = (a + b - 1) div b` (spec/00_scope.md R13). -/
def ceildiv (a b : Nat) : Nat := (a + b - 1) / b

/-- `MemRead(S, a, n)`: the elements `S[a..a+n)` (spec/00_scope.md R16). -/
def memRead {α : Type} (space : List α) (a n : Nat) : List α := (space.drop a).take n

/-- `MemWrite(S, a, n, v)`: `S[a..a+n)` replaced by `v`; "with `a = len(S)` appends" (spec/00_scope.md R16). -/
def memWrite {α : Type} (space : List α) (a n : Nat) (v : List α) : List α :=
  space.take a ++ v ++ space.drop (a + n)

/-- `zeros(n)` (spec/00_scope.md R14). -/
def zeros (n : Nat) : List Bit := List.replicate n false

/-- The bits of one byte, most significant first (spec/20_memory.md R55, R56): element `j` is `bit(m, 7 - j)`. -/
def bitsOfByte (m : Byte) : List Bit :=
  [m.getLsbD 7, m.getLsbD 6, m.getLsbD 5, m.getLsbD 4, m.getLsbD 3, m.getLsbD 2, m.getLsbD 1, m.getLsbD 0]

/-- `bitsOfBytes(m)` (spec/20_memory.md R56). -/
def bitsOfBytes : List Byte → List Bit
  | [] => []
  | m :: ms => bitsOfByte m ++ bitsOfBytes ms

/-- The byte of eight bits, `sum over j of b_j * 2^(7 - j)` (spec/20_memory.md R57). -/
def byteOfBits (b0 b1 b2 b3 b4 b5 b6 b7 : Bit) : Byte :=
  BitVec.ofNat 8 (b0.toNat * 128 + b1.toNat * 64 + b2.toNat * 32 + b3.toNat * 16 + b4.toNat * 8 + b5.toNat * 4 +
    b6.toNat * 2 + b7.toNat)

/-- `bytesOfBits(b)` (spec/20_memory.md R57): `len(b) div 8` bytes; the last `len(b) mod 8` bits form no byte and are
dropped. -/
def bytesOfBits : List Bit → List Byte
  | b0 :: b1 :: b2 :: b3 :: b4 :: b5 :: b6 :: b7 :: rest => byteOfBits b0 b1 b2 b3 b4 b5 b6 b7 :: bytesOfBits rest
  | _ => []

/-- `B[q]` for a 1-indexed position `q` (spec/00_scope.md R14); 0 beyond the block. -/
def bitAt (B : List Bit) (q : Nat) : Bit := B.getD (q - 1) false

/-- `B[q] <- v` (spec/00_scope.md R16). -/
def setAt (B : List Bit) (q : Nat) (v : Bit) : List Bit := B.set (q - 1) v

/-- `B[q] <- 1 - B[q]`, the inverter (spec/42_selector_inverter.md R140). -/
def invertAt (B : List Bit) (q : Nat) : List Bit := setAt B q (!bitAt B q)

/-- Exactly `n` elements: `B` cut, or continued by zeros. -/
def fit : Nat → List Bit → List Bit
  | 0, _ => []
  | n + 1, [] => false :: fit n []
  | n + 1, b :: bs => b :: fit n bs

/-- `b` before `t`, but for a 0 that would end the list. -/
def consTrim (b : Bit) (t : List Bit) : List Bit := if b = false ∧ t = [] then [] else b :: t

/-- `B` without the zeros at its end: the canonical form of the register file `BLK` (log 5). -/
def trimZeros : List Bit → List Bit
  | [] => []
  | b :: bs => consTrim b (trimZeros bs)

/-- The register file read as a block: `BLK[1..L]`. -/
def blkRead (blk : List Bit) (L : Nat) : List Bit := fit L blk

/-- `BLK[1..L] <- cells`: exactly the cells 1 to `L` are written, the cells above `L` keep their bits
(spec/10_state.md R24). -/
def blkStore (blk : List Bit) (L : Nat) (cells : List Bit) : List Bit := trimZeros (fit L cells ++ blk.drop L)

end Sys2Proof.Machine
end

