-- ==== Sys2Proof/Machine/Layout.lean ====
section
/-! DEFINITION. The parity layout calculator (spec/40_layout.md R100 to R109). -/

namespace Sys2Proof.Machine

/-- The least `r` from `r` upward with `2^r >= m + r + 1`, searched for `fuel` candidates. -/
def leastParity : (fuel r m : Nat) → Nat
  | 0, r, _ => r
  | fuel + 1, r, m => if m + r + 1 ≤ 2 ^ r then r else leastParity fuel (r + 1) m

/-- `parityCount(mode)` in the exact integer form of R101: the least `r >= 0` with `2^r >= mode + r + 1`. Its domain is
`mode >= 1` and it has "no value elsewhere" (R104): the argument is a `Mode`, which the operand check alone hands out
(`classifyMode`, log 13). -/
def parityCount (mode : Mode) : Nat := leastParity (mode.val + 1) 0 mode.val

/-- `blockLength(mode) = mode + parityCount(mode)` (R106). -/
def blockLength (mode : Mode) : Nat := mode.val + parityCount mode

/-- `parityPos(s) = 2^s` (R107). -/
def parityPos (s : Nat) : Nat := 2 ^ s

/-- The least `t` from `t` upward with `i + t < 2^t`, searched for `fuel` candidates. -/
def leastShift : (fuel t i : Nat) → Nat
  | 0, t, _ => t
  | fuel + 1, t, i => if i + t < 2 ^ t then t else leastShift fuel (t + 1) i

/-- `dataPos(i)` by the closed form of R109: `i + t` for the least `t` with `i + t < 2^t`. -/
def dataPos (i : Nat) : Nat := i + leastShift (i + 1) 0 i

/-- `PC_MAX = parityCount(MODE_MAX)` (spec/00_scope.md R11). -/
def pcMax (modeMax : Mode) : Nat := parityCount modeMax

/-- `BL_MAX = MODE_MAX + PC_MAX` (spec/00_scope.md R11). -/
def blMax (modeMax : Mode) : Nat := modeMax.val + pcMax modeMax

end Sys2Proof.Machine
end

