-- ==== Sys2Proof/Machine/Syndrome.lean ====
section
/-! DEFINITION. The syndrome engine SYN as functions on a block (spec/41_syndrome_engine.md R121 to R129). -/

namespace Sys2Proof.Machine

/-- Order `s` covers position `q`: `bit(q, s) = 1` (R122). -/
def covers (s q : Nat) : Bool := q.testBit s

/-- The XOR of the covered cells of a block whose first cell stands at position `q`. -/
def sindFrom (s : Nat) : (q : Nat) → List Bit → Bit
  | _, [] => false
  | q, b :: bs => (covers s q && b) ^^ sindFrom s (q + 1) bs

/-- `sind(B, s)`, the parity of order `s` (R123). -/
def sind (B : List Bit) (s : Nat) : Bit := sindFrom s 1 B

/-- One turn of R125's loop: the slot of order `s` receives the output of XOR tree `s`, on the block as it stands. -/
def writeSlot (B : List Bit) (s : Nat) : List Bit := setAt B (parityPos s) (sind B s)

/-- `writeParity(B)`, encode mode (R125): `for s in 0..P-1`, literally, on any block (spec/92_eei_decisions.md D24). -/
def writeParity (P : Nat) (B : List Bit) : List Bit := (List.range P).foldl writeSlot B

/-- `syndrome(B)`, decode mode (R129): `syn <- syn + 2^s * sind(B, s)` for `s in 0..P-1`. -/
def syndrome (P : Nat) (B : List Bit) : Nat :=
  (List.range P).foldl (fun syn s => syn + 2 ^ s * (sind B s).toNat) 0

end Sys2Proof.Machine
end

