-- ==== Sys2Proof/Machine/Selector.lean ====
section
/-! DEFINITION. The selector and inverter SEL: the correction policy (spec/42_selector_inverter.md R140, R141). -/

namespace Sys2Proof.Machine

/-- `correct(B, syn)` (R140): the block and the count `u`. The bounds check is an explicit comparison with the block
length, made before any cell is addressed (R141). -/
def correct (B : List Bit) (syn : Nat) : List Bit × Nat :=
  if syn = 0 then (B, 0)
  else if syn ≤ B.length then (invertAt B syn, 0)
  else (B, 1)

/-- The same policy on the register file with the counter, as `CORR` and `DECODE` run it (R146, spec/43_block_codec.md
R177): new contents of `BLK`, new value of `UERR`. -/
def correctBlk (blk : List Bit) (L syn uerr : Nat) : List Bit × Nat :=
  if syn = 0 then (blk, uerr)
  else if syn ≤ L then (blkStore blk L (invertAt (blkRead blk L) syn), uerr)
  else (blk, uerr + 1)

end Sys2Proof.Machine
end

