-- ==== Sys2Proof/Machine/Codec.lean ====
section
/-! DEFINITION. The block codec ORCH as functions (spec/43_block_codec.md R151 to R158). -/

namespace Sys2Proof.Machine

/-- One turn of R151's loop: insert 0 before list index `2^s - 1` of the growing block. -/
def insertSlot (B : List Bit) (s : Nat) : List Bit := B.insertIdx (parityPos s - 1) false

/-- `reserve(c)` (R151): the zero placeholders inserted in increasing order of `s`. -/
def reserve (P : Nat) (c : List Bit) : List Bit := (List.range P).foldl insertSlot c

/-- `encodeBlock(c) = writeParity(reserve(c))` (R153). -/
def encodeBlock (mode : Mode) (c : List Bit) : List Bit :=
  writeParity (parityCount mode) (reserve (parityCount mode) c)

/-- `strip(B)` (R154): element `i - 1` is `B[dataPos(i)]` for `1 <= i <= mode`. -/
def strip (mode : Mode) (B : List Bit) : List Bit :=
  (List.range mode.val).map fun i => bitAt B (dataPos (i + 1))

/-- `decodeBlock(B)` (R155). -/
def decodeBlock (mode : Mode) (B : List Bit) : List Bit × Nat :=
  let r := correct B (syndrome (parityCount mode) B)
  (strip mode r.1, r.2)

/-- The number of blocks of a message, HAM's `resultBlockCount` (R156). -/
def blockCount (m : List Byte) (mode : Mode) : Nat := ceildiv (8 * m.length) mode.val

/-- `payload(m, mode)` (R156). -/
def payload (m : List Byte) (mode : Mode) : List Bit :=
  bitsOfBytes m ++ zeros (blockCount m mode * mode.val - 8 * m.length)

/-- `a[k*n .. (k+1)*n)`: the `k`-th piece of `n` elements (R157, R158). -/
def piece (a : List Bit) (n k : Nat) : List Bit := memRead a (k * n) n

/-- `encodeStream(m, mode)` (R157). -/
def encodeStream (m : List Byte) (mode : Mode) : List Bit :=
  let pay := payload m mode
  (List.range (pay.length / mode.val)).flatMap fun k => encodeBlock mode (piece pay mode.val k)

/-- The blocks of a received stream, decoded one by one (R158): data bits and count of each. -/
def decodedBlocks (bits : List Bit) (mode : Mode) : List (List Bit × Nat) :=
  (List.range (bits.length / blockLength mode)).map fun k => decodeBlock mode (piece bits (blockLength mode) k)

/-- `decodeStream(bits, mode)` (R158). -/
def decodeStream (bits : List Bit) (mode : Mode) : List Byte × Nat :=
  let r := decodedBlocks bits mode
  (bytesOfBits (r.flatMap Prod.fst), (r.map Prod.snd).sum)

end Sys2Proof.Machine
end

