-- ==== Sys2Proof/Config.lean ====
section
/-! DEFINITION. The two capacity parameters of an implementation (spec/00_scope.md R11). The spec leaves no free value:
these parameters are arguments of the model, carried in `State.params` (log 3). -/

namespace Sys2Proof

/-- `MODE_MAX` and `CAP_BITS` (R11). -/
structure Params where
  /-- `MODE_MAX`, the largest mode the implementation accepts, itself a mode. -/
  modeMax : Mode
  /-- `CAP_BITS`; `none` is "unbounded". -/
  capBits : Option Nat
deriving DecidableEq, Repr

/-- `1 <= MODE_MAX <= 2^27 - 1` (R11); the lower bound is in the type. -/
def Params.wf (p : Params) : Bool := decide (p.modeMax.val ≤ 134217727)

/-- "default a model may take" (spec/92_eei_decisions.md, open parameters): `MODE_MAX = 2^27 - 1`, `CAP_BITS` unbounded.
DESIGN CHOICE (log 3), unsafe: only `State.reset` uses it. -/
def Params.standard : Params := ⟨⟨134217727, by decide⟩, none⟩

end Sys2Proof
end

