-- ==== Sys2Proof/Machine/State.lean ====
section
/-! DEFINITION. The state of one engine (spec/10_state.md R20), the host's moves, the state after reset (R36), and the
reasons a step can stop. -/

namespace Sys2Proof.Machine

/-- `BSTATE`, the phase of the block buffer (spec/10_state.md R30). -/
inductive Phase
  /-- 0: `BLK` holds no live block. -/
  | empty
  /-- 1: data bits placed, parity slots hold zero placeholders. -/
  | reserved
  /-- 2: parity written. -/
  | encoded
  /-- 3: a received block loaded. -/
  | received
  /-- 4: `SYND` holds this block's syndrome. -/
  | checked
  /-- 5: correction policy applied. -/
  | corrected
deriving DecidableEq, Repr

/-- `STATUS`, the status code of the most recent operation (spec/10_state.md R27, spec/60_exceptions.md R217). -/
inductive Status
  /-- 0: the operation completed. -/
  | ok
  /-- 1: `mode < 1`. -/
  | invalidMode
  /-- 2: `mode > MODE_MAX`. -/
  | modeUnsupported
  /-- 3: the word is not an operation. -/
  | illegalCommand
  /-- 4: no configuration, or wrong `BSTATE`. -/
  | sequenceError
  /-- 5: no whole chunk or block left. -/
  | underrun
  /-- 6: a buffer would exceed `CAP_BITS`. -/
  | capacityExceeded
deriving DecidableEq, Repr

/-- The three buffer spaces, each "a finite sequence with a current length" (spec/20_memory.md R50). A list is the
canonical form of such a sequence: equal spaces are equal lists (log 6). -/
structure Memory where
  /-- `MSG`, the message bytes (R51). -/
  msg : List Byte
  /-- `PAY`, the payload bits (R52). -/
  pay : List Bit
  /-- `BITS`, the encoded stream (R53). -/
  bits : List Bit
deriving DecidableEq, Repr

/-- What the host can do between two operations (spec/10_state.md R33, spec/20_memory.md R62, spec/70_reset_and_hazards.md
R240). DESIGN CHOICE (log 1): the moves still to come are a list in the state. -/
inductive HostMove
  /-- Issue a command word (spec/30_encoding.md R80). -/
  | issue (w : Command)
  /-- Replace the whole content of `MSG` (R62). -/
  | writeMsg (m : List Byte)
  /-- Replace the whole content of `BITS` (R62). -/
  | writeBits (b : List Bit)
  /-- Apply reset between operations (R240). -/
  | reset
deriving DecidableEq, Repr

/-- The registers and spaces of spec/10_state.md R20, and two fields of the model's own: `params` (log 3), `host`
(log 1). -/
structure State where
  /-- `MODE_MAX` and `CAP_BITS`: parameters, written by no step. -/
  params : Params
  /-- `MODE`; 0 means not configured (R21). -/
  mode : Nat
  /-- `PCOUNT` (R22). -/
  pcount : Nat
  /-- `BLEN` (R23). -/
  blen : Nat
  /-- `BLK` (R24): list index `q - 1` is cell `BLK[q]`; a cell beyond the list holds 0, and the list does not end in 0
  (log 5). -/
  blk : List Bit
  /-- `BSTATE` (R30). -/
  bstate : Phase
  /-- `SYND` (R25). -/
  synd : Nat
  /-- `UERR` (R26). -/
  uerr : Nat
  /-- `PRD` (R28). -/
  prd : Nat
  /-- `BRD` (R29). -/
  brd : Nat
  /-- `STATUS` (R27). -/
  status : Status
  /-- The buffer spaces `MSG`, `PAY`, `BITS`. -/
  mem : Memory
  /-- The host's moves still to come, the next one first. -/
  host : List HostMove
deriving DecidableEq, Repr

/-- Reset of an engine built with parameters `p` (spec/10_state.md R36, spec/70_reset_and_hazards.md R240), the host still
to make `moves`. The cells of `BLK` are "unspecified" there; here all hold 0: DESIGN CHOICE (log 4), unsafe. -/
def State.powerOn (p : Params) (moves : List HostMove) : State :=
  { params := p
    mode := 0
    pcount := 0
    blen := 0
    blk := []
    bstate := .empty
    synd := 0
    uerr := 0
    prd := 0
    brd := 0
    status := .ok
    mem := ⟨[], [], []⟩
    host := moves }

/-- The machine right after reset (R36), with the parameters of `Params.standard` (log 3) and no host move pending
(log 1). -/
def State.reset : State := State.powerOn Params.standard []

/-- Reasons the machine stops with a fault. No operation raises one: the spec's faults are status codes after which the
engine "accepts any operation" (spec/60_exceptions.md R218, R220; log 8). -/
inductive Fault
  /-- Raised by the step when the HOST replaces `MSG` or `BITS` by more than `CAP_BITS` bits, elements the space does
  not have (spec/20_memory.md R51, R53). DESIGN CHOICE (log 7), safe: the spec gives such a write no effect. -/
  | hostWritePastCapacity
deriving DecidableEq, Repr

/-- Reasons the machine refuses. -/
inductive Refusal
  /-- Raised by an arm of `exec` whose instruction has no meaning yet; no arm does so. Safe. -/
  | notModelled (mnemonic : String)
deriving DecidableEq, Repr

end Sys2Proof.Machine
end

