-- ==== Sys2Proof/Machine/Ops.lean ====
section
/-! DEFINITION. The named operations over registers and spaces, taking a fault (spec/60_exceptions.md R218) and what
the host can do between operations (spec/20_memory.md R62). -/

namespace Sys2Proof.Machine

/-- The answer of an operation. -/
abbrev Result := Host.Outcome State Fault Refusal

/-! The spaces. -/

/-- Replace `MSG` whole. -/
def Memory.setMsg (m : Memory) (v : List Byte) : Memory := { m with msg := v }

/-- Replace `PAY` whole; `MemClear(PAY)` is `setPay []`. -/
def Memory.setPay (m : Memory) (v : List Bit) : Memory := { m with pay := v }

/-- Replace `BITS` whole; `MemClear(BITS)` is `setBits []`. -/
def Memory.setBits (m : Memory) (v : List Bit) : Memory := { m with bits := v }

/-- `MemWrite(PAY, len(PAY), n, v)`: append (spec/00_scope.md R16). -/
def Memory.appendPay (m : Memory) (n : Nat) (v : List Bit) : Memory := m.setPay (memWrite m.pay m.pay.length n v)

/-- `MemWrite(BITS, len(BITS), n, v)`: append (spec/00_scope.md R16). -/
def Memory.appendBits (m : Memory) (n : Nat) (v : List Bit) : Memory :=
  m.setBits (memWrite m.bits m.bits.length n v)

/-! The registers. -/

/-- `STATUS <- c`. -/
def State.setStatus (s : State) (c : Status) : State := { s with status := c }

/-- `BSTATE <- p`. -/
def State.setPhase (s : State) (p : Phase) : State := { s with bstate := p }

/-- `SYND <- v`. -/
def State.setSynd (s : State) (v : Nat) : State := { s with synd := v }

/-- `UERR <- v`. -/
def State.setUerr (s : State) (v : Nat) : State := { s with uerr := v }

/-- `PRD <- v`. -/
def State.setPrd (s : State) (v : Nat) : State := { s with prd := v }

/-- `BRD <- v`. -/
def State.setBrd (s : State) (v : Nat) : State := { s with brd := v }

/-- The register file `BLK` replaced by `blk`. -/
def State.setBlk (s : State) (blk : List Bit) : State := { s with blk := blk }

/-- The spaces replaced by `m`. -/
def State.setMem (s : State) (m : Memory) : State := { s with mem := m }

/-- The host's moves still to come. -/
def State.setHost (s : State) (moves : List HostMove) : State := { s with host := moves }

/-- `MODE`, `PCOUNT`, `BLEN`, always written together (spec/10_state.md R22, R23). -/
def State.configure (s : State) (mode : Mode) : State :=
  { s with mode := mode.val, pcount := parityCount mode, blen := blockLength mode }

/-- The block in the buffer, `BLK[1..BLEN]`. -/
def State.block (s : State) : List Bit := blkRead s.blk s.blen

/-- `BLK[1..BLEN] <- cells`. -/
def State.storeBlock (s : State) (cells : List Bit) : State := s.setBlk (blkStore s.blk s.blen cells)

/-- The host's read of `BLK[q]`, possible for `1 <= q <= BLEN` (spec/10_state.md R33). -/
def State.hostReadBlk (s : State) (q : Nat) : Option Bit :=
  if 1 ≤ q ∧ q ≤ s.blen then some (bitAt s.blk q) else none

/-! Ending an operation. -/

/-- `raise <Fault>`: `STATUS` receives the code and nothing else changes (spec/60_exceptions.md R218). There is no
handler, no saved state and no return operation: the engine accepts any operation next (R220). -/
def raise (c : Status) (s : State) : Result := .next (s.setStatus c)

/-- `STATUS <- OK`, the last act of an operation that completes (spec/10_state.md R27). -/
def complete (s : State) : Result := .next (s.setStatus .ok)

/-- An illegal word raises `IllegalCommand` (spec/60_exceptions.md R213). -/
def illegalCommand (s : State) : Result := raise .illegalCommand s

/-! What the host does between operations. -/

/-- Whether `n` bits are more than `CAP_BITS` (spec/00_scope.md R11, spec/20_memory.md R63); never when it is
unbounded. -/
def exceedsCap (p : Params) (n : Nat) : Bool :=
  match p.capBits with
  | none => false
  | some c => decide (c < n)

/-- The length limits of the spaces (spec/20_memory.md R51, R52, R53). With the lists as they are this is the whole
well-formedness of the memory (log 6). -/
def Memory.wf (p : Params) (m : Memory) : Bool :=
  !exceedsCap p (8 * m.msg.length) && !exceedsCap p m.pay.length && !exceedsCap p m.bits.length

/-- The canonical form of `BLK`: no 0 at the end of the list (log 5). -/
def blkWf (blk : List Bit) : Bool := decide (trimZeros blk = blk)

/-- The next move of the host and the state in which the engine meets it; `none` when the host makes no further move
(spec/70_reset_and_hazards.md R254). -/
def nextMove (s : State) : Option (HostMove × State) :=
  match s.host with
  | [] => none
  | m :: rest => some (m, s.setHost rest)

/-- The host issues nothing: nothing changes, since "registers change only as the operation rules say"
(spec/10_state.md R33). DEDUCED (log 2). -/
def idle (s : State) : Result := .next s

/-- The host replaces `MSG` (spec/20_memory.md R62), within its length limit (R51); past it: log 7. -/
def hostWriteMsg (m : List Byte) (s : State) : Result :=
  if exceedsCap s.params (8 * m.length) then .fault .hostWritePastCapacity
  else .next (s.setMem (s.mem.setMsg m))

/-- The host replaces `BITS` (spec/20_memory.md R62), within its length limit (R53); past it: log 7. -/
def hostWriteBits (b : List Bit) (s : State) : Result :=
  if exceedsCap s.params b.length then .fault .hostWritePastCapacity
  else .next (s.setMem (s.mem.setBits b))

/-- Reset between operations (spec/70_reset_and_hazards.md R240): registers and spaces of R36; the parameters of the
implementation and the host's further moves stay (log 11). -/
def hostReset (s : State) : Result := .next (State.powerOn s.params s.host)

/-- The command word `w` made the host's next move. -/
def placeCommand (s : State) (w : Command) : State := s.setHost (.issue w :: s.host)

end Sys2Proof.Machine
end

