-- ==== Sys2Proof/Machine/Flags.lean ====
section
/-! DEFINITION. What stands in for flags: the codes of `STATUS` and `BSTATE` and the entry check of the
micro-operations. "The engine has no condition codes and no status flags other than `STATUS` and `BSTATE`"
(spec/10_state.md R32). -/

namespace Sys2Proof.Machine

/-- The status codes (spec/60_exceptions.md R217). -/
def Status.code : Status → Nat
  | .ok => 0
  | .invalidMode => 1
  | .modeUnsupported => 2
  | .illegalCommand => 3
  | .sequenceError => 4
  | .underrun => 5
  | .capacityExceeded => 6

/-- The values of `BSTATE` (spec/10_state.md R30). -/
def Phase.code : Phase → Nat
  | .empty => 0
  | .reserved => 1
  | .encoded => 2
  | .received => 3
  | .checked => 4
  | .corrected => 5

/-- The phase a micro-operation requires (spec/60_exceptions.md R214); `SETMODE`, `ENCODE`, `DECODE` require none. -/
def requiredPhase : Instr → Option Phase
  | .setmode _ => none
  | .unpack => some .empty
  | .ldchunk => some .empty
  | .synw => some .reserved
  | .stblk => some .encoded
  | .ldblk => some .empty
  | .synr => some .received
  | .corr => some .checked
  | .strip => some .corrected
  | .pack => some .empty
  | .encode _ => none
  | .decode _ => none

/-- The entry check of a micro-operation: `MODE != 0` and the required phase, else `SequenceError`
(spec/60_exceptions.md R214, spec/43_block_codec.md section 4). `k` receives the configured mode, which the check has
shown to be one. -/
def inPhase (p : Phase) (s : State) (k : Mode → Result) : Result :=
  if h : s.mode = 0 ∨ s.bstate ≠ p then raise .sequenceError s
  else k ⟨s.mode, Nat.one_le_iff_ne_zero.mpr fun e => h (.inl e)⟩

/-- `Underrun` when the run `[cursor, cursor + n)` passes the end of a space of length `len`
(spec/60_exceptions.md R215). -/
def inSpace (cursor n len : Nat) (s : State) (k : Result) : Result :=
  if len < cursor + n then raise .underrun s else k

/-- `CapacityExceeded` when a space would become longer than `CAP_BITS` (spec/60_exceptions.md R216). -/
def inCapacity (n : Nat) (s : State) (k : Result) : Result :=
  if exceedsCap s.params n then raise .capacityExceeded s else k

end Sys2Proof.Machine
end

