-- ==== Sys2Proof/Machine/CodecOps.lean ====
section
/-! DEFINITION. The micro-operations of the block codec: `UNPACK`, `LDCHUNK`, `STBLK`, `LDBLK`, `STRIP`, `PACK`
(spec/43_block_codec.md R170 to R175). -/

namespace Sys2Proof.Machine

/-- `UNPACK` (R170): the padded payload of `MSG`; `BITS` is emptied. -/
def execUnpack (s : State) : Result :=
  inPhase .empty s fun m =>
    inCapacity (blockCount s.mem.msg m * m.val) s <|
      complete
        (((s.setMem ((s.mem.setPay (payload s.mem.msg m)).setBits [])).setPrd 0).setBrd 0)

/-- `LDCHUNK` (R171): the next chunk of `PAY` into the block buffer, zero placeholders at the parity slots. -/
def execLdchunk (s : State) : Result :=
  inPhase .empty s fun _ =>
    inSpace s.prd s.mode s.mem.pay.length s <|
      complete
        (((s.storeBlock (reserve s.pcount (memRead s.mem.pay s.prd s.mode))).setPrd (s.prd + s.mode)).setPhase
          .reserved)

/-- `STBLK` (R172): the encoded block appended to `BITS`, position 1 first. -/
def execStblk (s : State) : Result :=
  inPhase .encoded s fun _ =>
    inCapacity (s.mem.bits.length + s.blen) s <|
      complete ((s.setMem (s.mem.appendBits s.blen s.block)).setPhase .empty)

/-- `LDBLK` (R173): the next received block of `BITS` into the block buffer. -/
def execLdblk (s : State) : Result :=
  inPhase .empty s fun _ =>
    inSpace s.brd s.blen s.mem.bits.length s <|
      complete
        (((s.storeBlock (memRead s.mem.bits s.brd s.blen)).setBrd (s.brd + s.blen)).setPhase .received)

/-- `STRIP` (R174): the data bits of the block appended to `PAY`. -/
def execStrip (s : State) : Result :=
  inPhase .corrected s fun m =>
    inCapacity (s.mem.pay.length + s.mode) s <|
      complete ((s.setMem (s.mem.appendPay s.mode (strip m s.block))).setPhase .empty)

/-- `PACK` (R175): `PAY` regrouped into bytes, delivered as `MSG`. -/
def execPack (s : State) : Result :=
  inPhase .empty s fun _ =>
    complete (s.setMem (s.mem.setMsg (bytesOfBits s.mem.pay)))

end Sys2Proof.Machine
end

