-- ==== Sys2Proof/Machine/Operands.lean ====
section
/-! DEFINITION. The one operand form: the mode operand and its classification (spec/30_encoding.md R82, R83). -/

namespace Sys2Proof.Machine

/-- "classified in this order: `mode < 1` raises `InvalidMode`; `mode > MODE_MAX` raises `ModeUnsupported`; otherwise
the mode is valid" (R83). The rejecting caller of spec/40_layout.md R104: only a valid mode becomes a `Mode`, and with it
an argument of the layout calculator. -/
def classifyMode (p : Params) (mode : Int) : Except Status Mode :=
  if h : mode < 1 then .error .invalidMode
  else if (p.modeMax.val : Int) < mode then .error .modeUnsupported
  else .ok ⟨mode.toNat, by omega⟩

/-- Run `k` on a valid mode; otherwise take the fault, before any input is looked at (spec/60_exceptions.md R211). -/
def withMode (mode : Int) (s : State) (k : Mode → Result) : Result :=
  match classifyMode s.params mode with
  | .error c => raise c s
  | .ok m => k m

end Sys2Proof.Machine
end

