-- ==== Sys2Proof/Machine/ConfigureOps.lean ====
section
/-! DEFINITION. `SETMODE` (spec/40_layout.md R110). -/

namespace Sys2Proof.Machine

/-- `SETMODE mode` (R110): configure and begin a micro-operation call. `BLK`, `MSG`, `BITS` are not written. -/
def execSetmode (mode : Int) (s : State) : Result :=
  withMode mode s fun m =>
    complete
      (((((((s.configure m).setSynd 0).setUerr 0).setPrd 0).setBrd 0).setPhase .empty).setMem (s.mem.setPay []))

end Sys2Proof.Machine
end

