-- ==== Sys2Proof/Machine/MacroOps.lean ====
section
/-! DEFINITION. The macro-operations `ENCODE` and `DECODE` (spec/43_block_codec.md R176, R177), each with its block loop
in increasing `k`. -/

namespace Sys2Proof.Machine

/-- One block of `ENCODE`'s loop (R176): `BLK[1..L] <- encodeBlock(chunk k)`, then `BITS <- BITS ++ BLK[1..L]`. The
accumulator holds `BLK` and `BITS`. -/
def encodeStep (mode : Mode) (pay : List Bit) (acc : List Bit × List Bit) (k : Nat) : List Bit × List Bit :=
  let blk := blkStore acc.1 (blockLength mode) (encodeBlock mode (piece pay mode.val k))
  (blk, acc.2 ++ blkRead blk (blockLength mode))

/-- `ENCODE mode` (R176). The capacity check precedes every write. -/
def execEncode (mode : Int) (s : State) : Result :=
  withMode mode s fun m =>
    let n := blockCount s.mem.msg m
    inCapacity (n * blockLength m) s <|
      let pay := payload s.mem.msg m
      let acc := (List.range n).foldl (encodeStep m pay) (s.blk, [])
      complete
        ((((((((s.configure m).setSynd 0).setUerr 0).setBrd 0).setMem ((s.mem.setPay pay).setBits acc.2)).setBlk
          acc.1).setPrd (n * m.val)).setPhase .empty)

/-- What `DECODE`'s loop carries from block to block (R177). -/
structure DecodeAcc where
  /-- `BLK`. -/
  blk : List Bit
  /-- `SYND`. -/
  synd : Nat
  /-- `UERR`. -/
  uerr : Nat
  /-- `PAY`. -/
  pay : List Bit
deriving DecidableEq, Repr

/-- One block of `DECODE`'s loop (R177). -/
def decodeBlockStep (mode : Mode) (bits : List Bit) (acc : DecodeAcc) (k : Nat) : DecodeAcc :=
  let L := blockLength mode
  let blk := blkStore acc.blk L (piece bits L k)
  let synd := syndrome (parityCount mode) (blkRead blk L)
  let r := correctBlk blk L synd acc.uerr
  ⟨r.1, synd, r.2, acc.pay ++ strip mode (blkRead r.1 L)⟩

/-- `DECODE mode` (R177). A partial tail, no block at all and uncorrectable blocks are no faults. -/
def execDecode (mode : Int) (s : State) : Result :=
  withMode mode s fun m =>
    let n := s.mem.bits.length / blockLength m
    let acc := (List.range n).foldl (decodeBlockStep m s.mem.bits) ⟨s.blk, 0, 0, []⟩
    complete
      ((((((((s.configure m).setSynd acc.synd).setUerr acc.uerr).setPrd 0).setBlk acc.blk).setBrd
        (n * blockLength m)).setMem ((s.mem.setPay acc.pay).setMsg (bytesOfBits acc.pay))).setPhase .empty)

end Sys2Proof.Machine
end

