-- ==== Sys2Proof/Machine/SelectorOps.lean ====
section
/-! DEFINITION. `CORR` (spec/42_selector_inverter.md R146). -/

namespace Sys2Proof.Machine

/-- `CORR` (R146): the correction policy on the block buffer. `SYND` keeps its value; the uncorrectable case is no
fault. -/
def execCorr (s : State) : Result :=
  inPhase .checked s fun _ =>
    let r := correctBlk s.blk s.blen s.synd s.uerr
    complete (((s.setBlk r.1).setUerr r.2).setPhase .corrected)

end Sys2Proof.Machine
end

