-- ==== Sys2Proof/Machine/SyndromeOps.lean ====
section
/-! DEFINITION. `SYNW` and `SYNR` (spec/41_syndrome_engine.md R132, R133). -/

namespace Sys2Proof.Machine

/-- `SYNW` (R132): encode mode on the block buffer. `SYND` is not written. -/
def execSynw (s : State) : Result :=
  inPhase .reserved s fun _ =>
    complete ((s.storeBlock (writeParity s.pcount s.block)).setPhase .encoded)

/-- `SYNR` (R133): decode mode on the block buffer. `BLK` is not written. -/
def execSynr (s : State) : Result :=
  inPhase .received s fun _ =>
    complete ((s.setSynd (syndrome s.pcount s.block)).setPhase .checked)

end Sys2Proof.Machine
end

