-- ==== Sys2Proof/Machine/Dispatch.lean ====
section
/-! DEFINITION. The dispatch: one arm per operation. -/

namespace Sys2Proof.Machine

/-- The meaning of each of the twelve operations (spec/30_encoding.md R81). -/
def exec (i : Instr) (s : State) : Host.Outcome State Fault Refusal :=
  match i with
  | .setmode mode => Sys2Proof.Machine.execSetmode mode s
  | .unpack => Sys2Proof.Machine.execUnpack s
  | .ldchunk => Sys2Proof.Machine.execLdchunk s
  | .synw => Sys2Proof.Machine.execSynw s
  | .stblk => Sys2Proof.Machine.execStblk s
  | .ldblk => Sys2Proof.Machine.execLdblk s
  | .synr => Sys2Proof.Machine.execSynr s
  | .corr => Sys2Proof.Machine.execCorr s
  | .strip => Sys2Proof.Machine.execStrip s
  | .pack => Sys2Proof.Machine.execPack s
  | .encode mode => Sys2Proof.Machine.execEncode mode s
  | .decode mode => Sys2Proof.Machine.execDecode mode s

end Sys2Proof.Machine
end

