-- ==== Sys2Proof/Machine/Step.lean ====
section
/-! DEFINITION. One step: the host's next move, carried out. -/

namespace Sys2Proof.Machine

/-- A command word is decoded and executed, an illegal one raises `IllegalCommand`; a host write or a reset between
operations is a step of its own; with no move left nothing happens (logs 1, 2). -/
def step (s : State) : Host.Outcome State Fault Refusal :=
  match nextMove s with
  | none => idle s
  | some (.issue w, s') =>
    match decode w with
    | .ok i => exec i s'
    | .error _ => illegalCommand s'
  | some (.writeMsg m, s') => hostWriteMsg m s'
  | some (.writeBits b, s') => hostWriteBits b s'
  | some (.reset, s') => hostReset s'

/-- `s` with the word whose bits are `w` (bits from `nbits` up zero) as the host's next command word, before the moves
already pending (log 1). -/
def State.withFetchWord (s : State) (nbits w : Nat) : State := placeCommand s (BitVec.ofNat 32 (w % 2 ^ nbits))

end Sys2Proof.Machine
end

