-- ==== Sys2Proof/Machine/Collaborators.lean ====
section
/-! DEFINITION. The collaborators outside the hardware (spec/45_host_collaborators.md): pure functions of the host, with
every parameter and every random draw an argument (log 12). No operation of the engine reads any of them. -/

namespace Sys2Proof.Machine

/-- One of the 8 shifts of the CRC loop (R191). -/
def crcShift (r : BitVec 16) : BitVec 16 :=
  if r.toNat % 2 = 1 then (r >>> 1) ^^^ 0xA001#16 else r >>> 1

/-- `n` shifts. -/
def crcShifts : Nat → BitVec 16 → BitVec 16
  | 0, r => r
  | n + 1, r => crcShifts n (crcShift r)

/-- `checksum(data)` with the initial value `CRC_INIT` an argument (R190, R191, spec/90_conflicts.md C6). -/
def checksum (crcInit : BitVec 16) (data : List Byte) : BitVec 16 :=
  data.foldl (fun r b => crcShifts 8 (r ^^^ b.setWidth 16)) crcInit

/-- The single-fault injector (R194): in every whole block `k` the bit at index `k*L + draw k` is inverted, the draws
in `0..L-1`; the bits after the last whole block are returned unchanged. -/
def injectSingleFault (mode : Mode) (draw : Nat → Nat) (bits : List Bit) : List Bit :=
  (List.range (bits.length / blockLength mode)).foldl
    (fun b k => invertAt b (k * blockLength mode + draw k + 1)) bits

/-- The burst-fault injector (R196): block `k` is hit when `k mod 4 = BURST_PHASE`, two draws inverted in turn; when
they coincide the block is unchanged. -/
def injectBurstFault (mode : Mode) (phase : Nat) (draw draw' : Nat → Nat) (bits : List Bit) : List Bit :=
  (List.range (bits.length / blockLength mode)).foldl
    (fun b k =>
      if k % 4 = phase then
        invertAt (invertAt b (k * blockLength mode + draw k + 1)) (k * blockLength mode + draw' k + 1)
      else b) bits

end Sys2Proof.Machine
end

