-- ==== Sys2Proof/Machine/Reference.lean ====
section
/-! DEFINITION. Second forms that the spec gives of the machine's functions, for claims to compare with: HAM's own
enumeration (spec/41_syndrome_engine.md R121), the XOR tree (R124), the XOR of positions (R130), the list procedures of
stripping (spec/43_block_codec.md R154). No operation uses them. -/

namespace Sys2Proof.Machine

/-- The starts `p` of the covered runs of order `s`: `2^s, 3*2^s, 5*2^s, …` up to `L` (R121). -/
def runStarts (s L : Nat) : List Nat :=
  ((List.range (L + 1)).map fun a => 2 ^ s + a * 2 ^ (s + 1)).takeWhile (· ≤ L)

/-- The positions `p + j`, `j` in `[0, 2^s)`, "stopping early if `p + j` exceeds the block length" (R121). -/
def runPositions (s L p : Nat) : List Nat := ((List.range (2 ^ s)).map (p + ·)).takeWhile (· ≤ L)

/-- The positions HAM's loop of order `s` visits, in its order (R121). -/
def hamCover (s L : Nat) : List Nat := (runStarts s L).flatMap (runPositions s L)

/-- The XOR of the cells of `B` at the given positions, in their order. -/
def xorAt (B : List Bit) (positions : List Nat) : Bit := positions.foldl (fun acc q => acc ^^ bitAt B q) false

/-- A tree of two-input XOR gates over leaf positions (R124). -/
inductive XorTree
  /-- A leaf: the cell at a position. -/
  | leaf (q : Nat)
  /-- A two-input XOR gate. -/
  | gate (l r : XorTree)
deriving DecidableEq, Repr

/-- The leaves of a tree, left to right. -/
def XorTree.leaves : XorTree → List Nat
  | .leaf q => [q]
  | .gate l r => l.leaves ++ r.leaves

/-- The output of a tree over the register file: "the leaves with `q > BLEN` are forced to 0" (R124). -/
def XorTree.output (blk : List Bit) (blen : Nat) : XorTree → Bit
  | .leaf q => if q ≤ blen then bitAt blk q else false
  | .gate l r => l.output blk blen ^^ r.output blk blen

/-- `cover(s, L)` in increasing order (R122). -/
def cover (s L : Nat) : List Nat := (List.range' 1 L).filter (covers s)

/-- The bitwise XOR of the position numbers holding 1, the first cell standing at `q` (R130). -/
def onesXorFrom : (q : Nat) → List Bit → Nat
  | _, [] => 0
  | q, b :: bs => (if b then q else 0) ^^^ onesXorFrom (q + 1) bs

/-- The bitwise XOR of the position numbers of all positions holding 1 (R130). -/
def onesXor (B : List Bit) : Nat := onesXorFrom 1 B

/-- `X(E)`, the bitwise XOR of the position numbers in `E` (R131). -/
def xorOf (E : List Nat) : Nat := E.foldl (· ^^^ ·) 0

/-- `B` with the bits at the positions `E` inverted, one after another (R131). -/
def invertAll (B : List Bit) (E : List Nat) : List Bit := E.foldl invertAt B

/-- Stripping in decreasing `s` at list index `2^s - 1` (R154). -/
def stripDecreasing (P : Nat) (B : List Bit) : List Bit :=
  (List.range P).reverse.foldl (fun b s => b.eraseIdx (2 ^ s - 1)) B

/-- Stripping in increasing `s` at list index `2^s - 1 - s` (R154). -/
def stripIncreasing (P : Nat) (B : List Bit) : List Bit :=
  (List.range P).foldl (fun b s => b.eraseIdx (2 ^ s - 1 - s)) B

/-- The literal list reading of HAM's wording, which the spec rejects (R154, spec/90_conflicts.md C3): index `2^s - 1` of
the already shortened list. -/
def stripLiteral (P : Nat) (B : List Bit) : List Bit :=
  (List.range P).foldl (fun b s => b.eraseIdx (2 ^ s - 1)) B

end Sys2Proof.Machine
end

