-- ==== Sys2Proof/Safety.lean ====
section
/-! DEFINITION. The terms in which claims are made: the invariant of the machine, completion of a sequence of
operations, the fault that a rule names, what an operation leaves alone. -/

namespace Sys2Proof.Machine

/-- What the spec says holds of the state between operations, whatever the host does. -/
structure State.Inv (s : State) : Prop where
  /-- `MODE_MAX <= 2^27 - 1` (spec/00_scope.md R11). -/
  params : s.params.wf = true
  /-- Not configured, or configured with a valid mode and the layout that follows from it (spec/10_state.md R21 to R23,
  R36). -/
  config : (s.mode = 0 ∧ s.pcount = 0 ∧ s.blen = 0 ∧ s.bstate = .empty ∧ s.uerr = 0) ∨
    (∃ h : 1 ≤ s.mode, s.mode ≤ s.params.modeMax.val ∧ s.pcount = parityCount ⟨s.mode, h⟩ ∧
      s.blen = blockLength ⟨s.mode, h⟩)
  /-- `SYND` is "an integer in `[0, 2^parityCount − 1]`" (R25). -/
  synd : s.synd < 2 ^ s.pcount
  /-- `BLK` is in canonical form (log 5). -/
  blk : blkWf s.blk = true
  /-- `BLK` has `BL_MAX` cells (R24). -/
  blkCells : s.blk.length ≤ blMax s.params.modeMax
  /-- The length of `PAY` is a multiple of `MODE` (spec/20_memory.md R52). -/
  pay : s.mode ∣ s.mem.pay.length
  /-- `PRD` is a multiple of `MODE` within `PAY` (R28). -/
  prd : s.mode ∣ s.prd ∧ s.prd ≤ s.mem.pay.length
  /-- `BRD` is a multiple of `BLEN` (R29). -/
  brd : s.blen ∣ s.brd
  /-- In `RESERVED` the parity slots hold zero placeholders (R30, spec/41_syndrome_engine.md R127). -/
  reserved : s.bstate = .reserved → ∀ k < s.pcount, bitAt s.blk (2 ^ k) = false
  /-- In `ENCODED` the block is a codeword (spec/41_syndrome_engine.md R131 (a)). -/
  encoded : s.bstate = .encoded → syndrome s.pcount s.block = 0
  /-- In `CHECKED` `SYND` is the syndrome of the block (spec/42_selector_inverter.md R146). -/
  checked : s.bstate = .checked → s.synd = syndrome s.pcount s.block
  /-- In `CORRECTED` a block whose syndrome was addressable is a codeword (spec/41_syndrome_engine.md R131). -/
  corrected : s.bstate = .corrected → s.synd ≤ s.blen → syndrome s.pcount s.block = 0
  /-- The spaces keep their length limits (spec/20_memory.md R51 to R53). -/
  mem : s.mem.wf s.params = true

/-- `n` bits are within `CAP_BITS` (spec/20_memory.md R63). -/
def fitsCap (p : Params) (n : Nat) : Prop := ∀ c, p.capBits = some c → n ≤ c

/-- The operation ends with fault `c` and "no other change of state" (spec/60_exceptions.md R218). -/
def faultsWith (i : Instr) (s : State) (c : Status) : Prop := exec i s = .next { s with status := c }

/-- Configuration, parameters and the host's pending moves unchanged. -/
def sameConfig (s t : State) : Prop :=
  t.params = s.params ∧ t.mode = s.mode ∧ t.pcount = s.pcount ∧ t.blen = s.blen ∧ t.host = s.host

/-- `BLK[q]` unchanged for every position above `L`. -/
def sameCellsAbove (L : Nat) (s t : State) : Prop := ∀ q, L < q → bitAt t.blk q = bitAt s.blk q

/-- Run operations one after another, going on only while each completes with `OK` (spec/60_exceptions.md R221,
spec/70_reset_and_hazards.md R255: "stop at the first non-`OK` status"). -/
def runOk : List Instr → State → Option State
  | [], s => some s
  | i :: is, s =>
    match exec i s with
    | .next t => if t.status = .ok then runOk is t else none
    | .fault _ => none
    | .refused _ => none

/-- `n` times the expansion of a pseudo-operation. -/
def timesPseudo : Nat → Pseudo → List Instr
  | 0, _ => []
  | n + 1, p => p.expand ++ timesPseudo n p

/-- The micro-operations of an encode call of `n` blocks (spec/43_block_codec.md R178). -/
def encodeCall (mode : Int) (n : Nat) : List Instr := [.setmode mode, .unpack] ++ timesPseudo n .encblk

/-- The micro-operations of a decode call of `n` blocks (spec/43_block_codec.md R178). -/
def decodeCall (mode : Int) (n : Nat) : List Instr := [.setmode mode] ++ timesPseudo n .decblk ++ [.pack]

/-- The condition of each fault, each on its own and whatever other condition holds (spec/60_exceptions.md R211, R212,
R214, R215, R216). -/
def faultCondition (i : Instr) (s : State) : Status → Prop
  | .ok => True
  | .illegalCommand => False
  | .invalidMode => ∃ mode, (i = .setmode mode ∨ i = .encode mode ∨ i = .decode mode) ∧ mode < 1
  | .modeUnsupported =>
    ∃ mode, (i = .setmode mode ∨ i = .encode mode ∨ i = .decode mode) ∧ (s.params.modeMax.val : Int) < mode
  | .sequenceError => ∃ p, requiredPhase i = some p ∧ (s.mode = 0 ∨ s.bstate ≠ p)
  | .underrun =>
    (i = .ldchunk ∧ s.mem.pay.length < s.prd + s.mode) ∨ (i = .ldblk ∧ s.mem.bits.length < s.brd + s.blen)
  | .capacityExceeded =>
    (i = .unpack ∧ ¬ fitsCap s.params (ceildiv (8 * s.mem.msg.length) s.mode * s.mode)) ∨
    (i = .stblk ∧ ¬ fitsCap s.params (s.mem.bits.length + s.blen)) ∨
    (i = .strip ∧ ¬ fitsCap s.params (s.mem.pay.length + s.mode)) ∨
    (∃ mode : Mode, i = .encode (mode.val : Int) ∧
      ¬ fitsCap s.params (ceildiv (8 * s.mem.msg.length) mode.val * blockLength mode))

/-- The place of a fault in the order of spec/60_exceptions.md R219, `OK` last. -/
def Status.priority : Status → Nat
  | .illegalCommand => 1
  | .invalidMode => 2
  | .modeUnsupported => 3
  | .sequenceError => 4
  | .underrun => 5
  | .capacityExceeded => 6
  | .ok => 7

/-- The phase a completed operation leaves (spec/10_state.md R30): `UNPACK` and `PACK` "do not touch `BLK`" and leave
`EMPTY` as it is. -/
def phaseAfter : Instr → Phase
  | .setmode _ => .empty
  | .unpack => .empty
  | .ldchunk => .reserved
  | .synw => .encoded
  | .stblk => .empty
  | .ldblk => .received
  | .synr => .checked
  | .corr => .corrected
  | .strip => .empty
  | .pack => .empty
  | .encode _ => .empty
  | .decode _ => .empty

end Sys2Proof.Machine
end

