-- ==== Sys2Proof/Certificates/Slice0/Obligations.lean ====
section
/-! DEFINITION. The statements for the provers. The docstring of each names the rule of spec/ it formalises; statements
that rest on an inference of the spec or a choice of the model say so. -/

open Sys2Proof Sys2Proof.Machine

/-! Encoding (spec/30_encoding.md). -/

/-- R86, R88: decoding the word of a well-formed instruction gives it back, every operand value included. -/
def Obligations.DecodeInvertsEncode : Prop :=
  ∀ i : Instr, i.wellFormed = true → decode (encode i) = .ok i

/-- R86: a word that decodes is the word of the instruction it decodes to, and that instruction is well-formed. -/
def Obligations.EncodeInvertsDecode : Prop :=
  ∀ (w : Command) (i : Instr), decode w = .ok i → i.wellFormed = true ∧ encode i = w

/-- R85: which words are illegal, and that an illegal word changes `STATUS` only. That it is then no longer among the
host's pending moves is the model's choice (log 1: the moves are a list in the state). -/
def Obligations.IllegalWordsExactly : Prop :=
  (∀ w : Command, (∃ e, decode w = .error e) ↔
    (w.toNat / 2 ^ 28 = 0 ∨ w.toNat / 2 ^ 28 = 13 ∨ w.toNat / 2 ^ 28 = 14 ∨ w.toNat / 2 ^ 28 = 15 ∨
      (2 ≤ w.toNat / 2 ^ 28 ∧ w.toNat / 2 ^ 28 ≤ 10 ∧ w.toNat % 2 ^ 28 ≠ 0))) ∧
  (∀ (w : Command) (e : Illegal) (s : State) (rest : List HostMove), decode w = .error e →
    s.host = .issue w :: rest → step s = .next { s with host := rest, status := .illegalCommand }) ∧
  (∃ e, decode 0x00000000#32 = .error e) ∧ (∃ e, decode 0xFFFFFFFF#32 = .error e)

/-- R81, spec/95_test_vectors.md 2.7: words written out from the encoding table decode to the operation they stand
for. -/
def Obligations.TableWordsDecode : Prop :=
  decode 0x10000008#32 = .ok (.setmode 8) ∧ decode 0x17FFFFFF#32 = .ok (.setmode 134217727) ∧
  decode 0x20000000#32 = .ok .unpack ∧ decode 0x50000000#32 = .ok .stblk ∧ decode 0x40000000#32 = .ok .synw ∧
  decode 0x80000000#32 = .ok .corr ∧ decode 0xBFFFFFFF#32 = .ok (.encode (-1)) ∧
  decode 0xC8000000#32 = .ok (.decode (-134217728)) ∧ decodeTableWord 32 0xA0000000 = some .pack ∧
  decodeTableWord 32 0x20000001 = none

/-! Layout (spec/40_layout.md). -/

/-- R100: the parity count is HAM's real-valued formula, with the exact integer ceiling. -/
def Obligations.ParityCountIsRealFormula : Prop :=
  ∀ mode : Mode,
    ((parityCount mode : Nat) : Int) = ⌈Real.logb 2 (Real.logb 2 ((mode.val : ℝ) + 1) + (mode.val : ℝ) + 1)⌉

/-- spec/40_layout.md section 1 and R108, inferences of the spec: the count is the least `r` with `2^r >= mode + r + 1`,
at least 2; the highest slot lies strictly inside the block; the block is at most `2^P - 1` long; its powers of two are
the `P` slots; every insertion index of the encode path is inside the list. -/
def Obligations.LayoutFacts : Prop :=
  ∀ mode : Mode,
    (mode.val + parityCount mode + 1 ≤ 2 ^ parityCount mode ∧ ∀ r < parityCount mode, 2 ^ r < mode.val + r + 1) ∧
    2 ≤ parityCount mode ∧
    2 ^ (parityCount mode - 1) < blockLength mode ∧
    blockLength mode ≤ 2 ^ parityCount mode - 1 ∧
    (∀ q, 1 ≤ q → q ≤ blockLength mode → ((∃ k, q = 2 ^ k) ↔ ∃ k < parityCount mode, q = 2 ^ k)) ∧
    (∀ k < parityCount mode, 2 ^ k - 1 < mode.val + k)

/-- spec/40_layout.md R109, with its closed form an inference of the spec: `dataPos` lists the positive integers that
are no powers of two in increasing order, each once, and the last data position of a block is its last position. -/
def Obligations.DataPositionsEnumerate : Prop :=
  (∀ i, 1 ≤ i → ¬ ∃ k, dataPos i = 2 ^ k) ∧
  (∀ i j, 1 ≤ i → i < j → dataPos i < dataPos j) ∧
  (∀ q, 1 ≤ q → (¬ ∃ k, q = 2 ^ k) → ∃ i, 1 ≤ i ∧ dataPos i = q) ∧
  (∀ mode : Mode, dataPos mode.val = blockLength mode)

/-! Bytes and bits (spec/20_memory.md). -/

/-- R56, R57: most significant bit first in both directions, the bits that fill no byte dropped. -/
def Obligations.BytesAndBitsRegroup : Prop :=
  (∀ m : List Byte, (bitsOfBytes m).length = 8 * m.length ∧
    ∀ i j, i < m.length → j < 8 → (bitsOfBytes m)[8 * i + j]? = (m[i]?).map fun x => x.getLsbD (7 - j)) ∧
  (∀ b : List Bit, (bytesOfBits b).length = b.length / 8 ∧
    (∀ i, i < b.length / 8 →
      ((bytesOfBits b).getD i 0#8).toNat = ∑ j ∈ Finset.range 8, (b.getD (8 * i + j) false).toNat * 2 ^ (7 - j)) ∧
    bytesOfBits b = bytesOfBits (b.take (8 * (b.length / 8)))) ∧
  (∀ m : List Byte, bytesOfBits (bitsOfBytes m) = m)

/-! The syndrome engine (spec/41_syndrome_engine.md). -/

/-- R121, R123: the parity of an order is the XOR over the positions HAM's loop visits, in its order; the parity is 1
exactly when an odd number of them hold 1. That they are the positions whose digit `s` is 1, each once, is R122, an
inference of the spec. -/
def Obligations.SindIsHamEnumeration : Prop :=
  ∀ (B : List Bit) (s : Nat),
    (∀ q, q ∈ hamCover s B.length ↔ 1 ≤ q ∧ q ≤ B.length ∧ q.testBit s = true) ∧
    (hamCover s B.length).Nodup ∧
    sind B s = xorAt B (hamCover s B.length) ∧
    (sind B s = true ↔ (hamCover s B.length).countP (fun q => bitAt B q) % 2 = 1)

/-- R124: whatever the shape of the XOR tree over `cover(s, BL_MAX)` and the order of its leaves, with the leaves above
`BLEN` forced to 0 it computes `sind(BLK[1..BLEN], s)`. -/
def Obligations.XorTreeShapeImmaterial : Prop :=
  ∀ (blk : List Bit) (blen blmax s : Nat) (T : XorTree), blen ≤ blmax → T.leaves.Perm (cover s blmax) →
    T.output blk blen = sind (blkRead blk blen) s

/-- spec/41_syndrome_engine.md R126, an inference of the spec: the orders may be written in any order, and each slot
receives the parity taken on the block as it was before. -/
def Obligations.ParityOrdersIndependent : Prop :=
  ∀ (P : Nat) (B : List Bit),
    (∀ order : List Nat, order.Perm (List.range P) → order.foldl writeSlot B = writeParity P B) ∧
    (writeParity P B).length = B.length ∧
    (∀ q, 1 ≤ q → q ≤ B.length →
      ((∀ k < P, q ≠ 2 ^ k) → bitAt (writeParity P B) q = bitAt B q) ∧
      (∀ k < P, q = 2 ^ k → bitAt (writeParity P B) q = sind B k))

/-- spec/41_syndrome_engine.md R127, R128, inferences of the spec: with zero placeholders every group becomes even; a
second application undoes the first. -/
def Obligations.WriteParityTwiceRestores : Prop :=
  ∀ (P : Nat) (B : List Bit),
    writeParity P (writeParity P B) = B ∧
    ((∀ k < P, bitAt B (2 ^ k) = false) → ∀ k < P, sind (writeParity P B) k = false)

/-- spec/41_syndrome_engine.md R129, R130 (the latter an inference of the spec): the syndrome is the XOR of the
positions that hold 1, below `2^P`, its digit `k` the parity of order `k`. -/
def Obligations.SyndromeIsXorOfPositions : Prop :=
  ∀ (P : Nat) (B : List Bit), B.length < 2 ^ P →
    syndrome P B = onesXor B ∧ syndrome P B < 2 ^ P ∧ ∀ k < P, (syndrome P B).testBit k = sind B k

/-- spec/41_syndrome_engine.md R131, an inference of the spec: an encoded block has syndrome 0, inverting the positions
`E` changes the syndrome by the XOR of `E`, and two different positions never cancel or address one another. -/
def Obligations.ErrorsShiftSyndrome : Prop :=
  (∀ (mode : Mode) (R : List Bit), R.length = blockLength mode →
    (∀ k < parityCount mode, bitAt R (2 ^ k) = false) →
    syndrome (parityCount mode) (writeParity (parityCount mode) R) = 0) ∧
  (∀ (P : Nat) (B : List Bit) (E : List Nat), B.length < 2 ^ P → (∀ q ∈ E, 1 ≤ q ∧ q ≤ B.length) →
    syndrome P (invertAll B E) = syndrome P B ^^^ xorOf E) ∧
  (∀ a b : Nat, 1 ≤ a → 1 ≤ b → a ≠ b → xorOf [a, b] ≠ 0 ∧ xorOf [a, b] ≠ a ∧ xorOf [a, b] ≠ b)

/-! The correction policy (spec/42_selector_inverter.md). -/

/-- R143: a received block that differs from a codeword in exactly one position is corrected by `SYNR` and `CORR`, and
nothing but `BLK` and `SYND` tells so. -/
def Obligations.SingleErrorsCorrected : Prop :=
  ∀ (s : State) (B : List Bit) (q : Nat), s.Inv → s.bstate = .received → B.length = s.blen →
    syndrome s.pcount B = 0 → 1 ≤ q → q ≤ s.blen → s.block = invertAt B q →
    ∃ t u, exec .synr s = .next t ∧ exec .corr t = .next u ∧ t.synd = q ∧ u.synd = q ∧ u.block = B ∧
      sameCellsAbove s.blen s u ∧ u.uerr = s.uerr ∧ u.status = .ok ∧ u.bstate = .corrected ∧ u.mem = s.mem ∧
      u.prd = s.prd ∧ u.brd = s.brd ∧ sameConfig s u

/-- R145: a codeword with two or more inverted bits whose syndrome is a position gets the bit there inverted and is not
counted (with two errors it is a third bit); with syndrome 0 it passes as error-free. -/
def Obligations.MiscorrectionKept : Prop :=
  ∀ (mode : Mode) (B : List Bit) (E : List Nat), B.length = blockLength mode →
    syndrome (parityCount mode) B = 0 → E.Nodup → 2 ≤ E.length → (∀ q ∈ E, 1 ≤ q ∧ q ≤ blockLength mode) →
    (xorOf E = 0 →
      correct (invertAll B E) (syndrome (parityCount mode) (invertAll B E)) = (invertAll B E, 0) ∧ 3 ≤ E.length) ∧
    (1 ≤ xorOf E → xorOf E ≤ blockLength mode →
      correct (invertAll B E) (syndrome (parityCount mode) (invertAll B E)) =
        (invertAt (invertAll B E) (xorOf E), 0) ∧ (E.length = 2 → xorOf E ∉ E))

/-- spec/42_selector_inverter.md R144, spec/90_conflicts.md C2, an inference of the spec: some pair of errors in a
codeword is counted as uncorrectable exactly when the mode is shortened. -/
def Obligations.DetectionOnlyShortened : Prop :=
  ∀ (mode : Mode) (B : List Bit), B.length = blockLength mode → syndrome (parityCount mode) B = 0 →
    ((∃ a b, 1 ≤ a ∧ a ≤ blockLength mode ∧ 1 ≤ b ∧ b ≤ blockLength mode ∧ a ≠ b ∧
      (correct (invertAll B [a, b]) (syndrome (parityCount mode) (invertAll B [a, b]))).2 = 1) ↔
      blockLength mode < 2 ^ parityCount mode - 1)

/-- spec/42_selector_inverter.md R144, an inference of the spec: `DECODE` with a perfect mode counts no block, whatever
is received. -/
def Obligations.PerfectModesNeverCount : Prop :=
  ∀ (s : State) (mode : Mode), mode.val ≤ s.params.modeMax.val → blockLength mode + 1 = 2 ^ parityCount mode →
    ∃ t, exec (.decode (mode.val : Int)) s = .next t ∧ t.status = .ok ∧ t.uerr = 0

/-! The block codec (spec/43_block_codec.md). -/

/-- R154: `strip` keeps the bits at the data positions in order; it undoes `reserve`, before and after the parity is
written; the two list procedures agree with it and the literal reading does not. -/
def Obligations.StripInvertsReserve : Prop :=
  (∀ (mode : Mode) (c : List Bit), c.length = mode.val →
    strip mode (reserve (parityCount mode) c) = c ∧
    strip mode (writeParity (parityCount mode) (reserve (parityCount mode) c)) = c) ∧
  (∀ (mode : Mode) (B : List Bit), B.length = blockLength mode →
    (strip mode B).length = mode.val ∧
    (∀ i, 1 ≤ i → i ≤ mode.val → (strip mode B)[i - 1]? = B[dataPos i - 1]?) ∧
    strip mode B = stripDecreasing (parityCount mode) B ∧
    strip mode B = stripIncreasing (parityCount mode) B) ∧
  stripLiteral 4 [false, false, false, true, true, false, true, false, false, true, false, true] =
    [false, true, true, true, false, false, true, true]

/-- spec/42_selector_inverter.md R142, an inference of the spec: inverting a parity slot changes no data bit. -/
def Obligations.SlotErrorsSpareData : Prop :=
  ∀ (mode : Mode) (k : Nat) (B : List Bit), strip mode (invertAt B (2 ^ k)) = strip mode B

/-- spec/20_memory.md R64 and spec/43_block_codec.md R157: where the bits of block `k` stand in the encoded stream. -/
def Obligations.EncodedStreamLayout : Prop :=
  ∀ (m : List Byte) (mode : Mode),
    (encodeStream m mode).length = ceildiv (8 * m.length) mode.val * blockLength mode ∧
    ∀ k < ceildiv (8 * m.length) mode.val,
      (∀ i, 1 ≤ i → i ≤ mode.val →
        (encodeStream m mode)[k * blockLength mode + dataPos i - 1]? = (payload m mode)[k * mode.val + i - 1]?) ∧
      (∀ s < parityCount mode,
        (encodeStream m mode)[k * blockLength mode + 2 ^ s - 1]? =
          some (sind (reserve (parityCount mode) (piece (payload m mode) mode.val k)) s))

/-- spec/20_memory.md R59 and spec/43_block_codec.md R160 (an inference of the spec): the bits beyond the last whole
block are not looked at; fewer bits than a block decode to nothing. -/
def Obligations.DecodeDropsTail : Prop :=
  ∀ (mode : Mode) (bits tail : List Bit), tail.length < blockLength mode →
    (blockLength mode ∣ bits.length → decodeStream (bits ++ tail) mode = decodeStream bits mode) ∧
    decodeStream tail mode = ([], 0)

/-- spec/43_block_codec.md R159, an inference of the spec: `ENCODE` then `DECODE` with one mode gives the message back,
followed by the whole zero bytes of the pad, with no block counted; exactly the message when the pad is shorter than a
byte, as it is for every mode up to 8 and for messages of a whole number of chunks. -/
def Obligations.RoundTripThroughEngine : Prop :=
  ∀ (s : State) (mode : Mode), mode.val ≤ s.params.modeMax.val →
    fitsCap s.params (ceildiv (8 * s.mem.msg.length) mode.val * blockLength mode) →
    ∃ t u, exec (.encode (mode.val : Int)) s = .next t ∧ exec (.decode (mode.val : Int)) t = .next u ∧
      t.status = .ok ∧ u.status = .ok ∧ u.uerr = 0 ∧ u.mem.pay = payload s.mem.msg mode ∧
      u.mem.msg = s.mem.msg ++
        List.replicate ((ceildiv (8 * s.mem.msg.length) mode.val * mode.val - 8 * s.mem.msg.length) / 8) 0#8 ∧
      (mode.val ≤ 8 ∨ mode.val ∣ 8 * s.mem.msg.length → u.mem.msg = s.mem.msg)

/-- spec/45_host_collaborators.md R194, R195 (an inference of the spec): after one inverted bit in every block, wherever
the draws put it, `DECODE` recovers the message and counts no block. The injector as a pure function of the draws is the
model's (log 12), and so is the host's write of `BITS` that changes that space alone (log 17). -/
def Obligations.SingleFaultPerBlockRecovered : Prop :=
  ∀ (s : State) (mode : Mode) (draw : Nat → Nat), mode.val ≤ s.params.modeMax.val →
    fitsCap s.params (ceildiv (8 * s.mem.msg.length) mode.val * blockLength mode) →
    (∀ k, draw k < blockLength mode) →
    ∃ t u, exec (.encode (mode.val : Int)) s = .next t ∧
      exec (.decode (mode.val : Int))
        { t with mem := { t.mem with bits := injectSingleFault mode draw t.mem.bits } } = .next u ∧
      u.status = .ok ∧ u.uerr = 0 ∧ u.mem.pay = payload s.mem.msg mode ∧
      (mode.val ≤ 8 ∨ mode.val ∣ 8 * s.mem.msg.length → u.mem.msg = s.mem.msg)

/-! The operations, each with its word, the cases in which it faults and its own effect. -/

/-- R110. -/
def Obligations.SetmodeConfigures : Prop :=
  (∀ imm : BitVec 28, decode (0x1#4 ++ imm) = .ok (.setmode (sext28 imm))) ∧
  (∀ (s : State) (mode : Int), mode < 1 → faultsWith (.setmode mode) s .invalidMode) ∧
  (∀ (s : State) (mode : Int), 1 ≤ mode → (s.params.modeMax.val : Int) < mode →
    faultsWith (.setmode mode) s .modeUnsupported) ∧
  (∀ (s : State) (mode : Mode), mode.val ≤ s.params.modeMax.val →
    ∃ t, exec (.setmode (mode.val : Int)) s = .next t ∧
      t.mode = mode.val ∧ (mode.val + t.pcount + 1 ≤ 2 ^ t.pcount ∧ ∀ r < t.pcount, 2 ^ r < mode.val + r + 1) ∧
      t.blen = mode.val + t.pcount ∧ t.synd = 0 ∧ t.uerr = 0 ∧ t.prd = 0 ∧ t.brd = 0 ∧ t.bstate = .empty ∧
      t.mem.pay = [] ∧ t.status = .ok ∧
      t.blk = s.blk ∧ t.mem.msg = s.mem.msg ∧ t.mem.bits = s.mem.bits ∧ t.params = s.params ∧ t.host = s.host)

/-- R170. -/
def Obligations.UnpackBuildsPayload : Prop :=
  decode 0x20000000#32 = .ok .unpack ∧
  (∀ s : State, s.mode = 0 ∨ s.bstate ≠ .empty → faultsWith .unpack s .sequenceError) ∧
  (∀ s : State, s.mode ≠ 0 → s.bstate = .empty →
    ¬ fitsCap s.params (ceildiv (8 * s.mem.msg.length) s.mode * s.mode) → faultsWith .unpack s .capacityExceeded) ∧
  (∀ s : State, s.mode ≠ 0 → s.bstate = .empty →
    fitsCap s.params (ceildiv (8 * s.mem.msg.length) s.mode * s.mode) →
    ∃ t, exec .unpack s = .next t ∧
      t.mem.pay.length = ceildiv (8 * s.mem.msg.length) s.mode * s.mode ∧
      (∀ i j, i < s.mem.msg.length → j < 8 →
        t.mem.pay[8 * i + j]? = (s.mem.msg[i]?).map fun x => x.getLsbD (7 - j)) ∧
      (∀ x, 8 * s.mem.msg.length ≤ x → x < t.mem.pay.length → t.mem.pay[x]? = some false) ∧
      t.mem.bits = [] ∧ t.prd = 0 ∧ t.brd = 0 ∧ t.status = .ok ∧
      t.mem.msg = s.mem.msg ∧ t.blk = s.blk ∧ t.bstate = s.bstate ∧ t.synd = s.synd ∧ t.uerr = s.uerr ∧
      sameConfig s t)

/-- R171 (the cells by R152). -/
def Obligations.LdchunkReservesChunk : Prop :=
  decode 0x30000000#32 = .ok .ldchunk ∧
  (∀ s : State, s.mode = 0 ∨ s.bstate ≠ .empty → faultsWith .ldchunk s .sequenceError) ∧
  (∀ s : State, s.mode ≠ 0 → s.bstate = .empty → s.mem.pay.length < s.prd + s.mode →
    faultsWith .ldchunk s .underrun) ∧
  (∀ s : State, s.Inv → s.mode ≠ 0 → s.bstate = .empty → s.prd + s.mode ≤ s.mem.pay.length →
    ∃ t, exec .ldchunk s = .next t ∧
      (∀ k < s.pcount, bitAt t.blk (2 ^ k) = false) ∧
      (∀ i, 1 ≤ i → i ≤ s.mode → s.mem.pay[s.prd + i - 1]? = some (bitAt t.blk (dataPos i))) ∧
      sameCellsAbove s.blen s t ∧ t.prd = s.prd + s.mode ∧ t.bstate = .reserved ∧ t.status = .ok ∧
      t.mem = s.mem ∧ t.synd = s.synd ∧ t.uerr = s.uerr ∧ t.brd = s.brd ∧ sameConfig s t)

/-- spec/41_syndrome_engine.md R132. That each slot receives the XOR taken on the block as it was before, where R132 runs a
loop on the block as it stands, is R126, an inference of the spec. -/
def Obligations.SynwWritesParity : Prop :=
  decode 0x40000000#32 = .ok .synw ∧
  (∀ s : State, s.mode = 0 ∨ s.bstate ≠ .reserved → faultsWith .synw s .sequenceError) ∧
  (∀ s : State, s.Inv → s.bstate = .reserved →
    ∃ t, exec .synw s = .next t ∧
      (∀ k < s.pcount, bitAt t.blk (2 ^ k) = xorAt s.blk (cover k s.blen)) ∧
      (∀ q, 1 ≤ q → (∀ k < s.pcount, q ≠ 2 ^ k) → bitAt t.blk q = bitAt s.blk q) ∧
      t.bstate = .encoded ∧ t.status = .ok ∧
      t.synd = s.synd ∧ t.uerr = s.uerr ∧ t.prd = s.prd ∧ t.brd = s.brd ∧ t.mem = s.mem ∧ sameConfig s t)

/-- R172. -/
def Obligations.StblkAppendsBlock : Prop :=
  decode 0x50000000#32 = .ok .stblk ∧
  (∀ s : State, s.mode = 0 ∨ s.bstate ≠ .encoded → faultsWith .stblk s .sequenceError) ∧
  (∀ s : State, s.mode ≠ 0 → s.bstate = .encoded → ¬ fitsCap s.params (s.mem.bits.length + s.blen) →
    faultsWith .stblk s .capacityExceeded) ∧
  (∀ s : State, s.mode ≠ 0 → s.bstate = .encoded → fitsCap s.params (s.mem.bits.length + s.blen) →
    ∃ t, exec .stblk s = .next t ∧
      t.mem.bits.length = s.mem.bits.length + s.blen ∧ t.mem.bits.take s.mem.bits.length = s.mem.bits ∧
      (∀ q, 1 ≤ q → q ≤ s.blen → t.mem.bits[s.mem.bits.length + q - 1]? = some (bitAt s.blk q)) ∧
      t.bstate = .empty ∧ t.status = .ok ∧
      t.blk = s.blk ∧ t.mem.msg = s.mem.msg ∧ t.mem.pay = s.mem.pay ∧ t.synd = s.synd ∧ t.uerr = s.uerr ∧
      t.prd = s.prd ∧ t.brd = s.brd ∧ sameConfig s t)

/-- R173. -/
def Obligations.LdblkLoadsBlock : Prop :=
  decode 0x60000000#32 = .ok .ldblk ∧
  (∀ s : State, s.mode = 0 ∨ s.bstate ≠ .empty → faultsWith .ldblk s .sequenceError) ∧
  (∀ s : State, s.mode ≠ 0 → s.bstate = .empty → s.mem.bits.length < s.brd + s.blen →
    faultsWith .ldblk s .underrun) ∧
  (∀ s : State, s.mode ≠ 0 → s.bstate = .empty → s.brd + s.blen ≤ s.mem.bits.length →
    ∃ t, exec .ldblk s = .next t ∧
      (∀ q, 1 ≤ q → q ≤ s.blen → s.mem.bits[s.brd + q - 1]? = some (bitAt t.blk q)) ∧
      sameCellsAbove s.blen s t ∧ t.brd = s.brd + s.blen ∧ t.bstate = .received ∧ t.status = .ok ∧
      t.mem = s.mem ∧ t.synd = s.synd ∧ t.uerr = s.uerr ∧ t.prd = s.prd ∧ sameConfig s t)

/-- spec/41_syndrome_engine.md R133, the digits of `SYND` by R129. That `SYND` is the XOR of the positions holding 1 is R130,
an inference of the spec. -/
def Obligations.SynrComputesSyndrome : Prop :=
  decode 0x70000000#32 = .ok .synr ∧
  (∀ s : State, s.mode = 0 ∨ s.bstate ≠ .received → faultsWith .synr s .sequenceError) ∧
  (∀ s : State, s.Inv → s.bstate = .received →
    ∃ t, exec .synr s = .next t ∧
      t.synd = onesXor s.block ∧ t.synd < 2 ^ s.pcount ∧
      (∀ k < s.pcount, t.synd.testBit k = xorAt s.blk (cover k s.blen)) ∧
      t.bstate = .checked ∧ t.status = .ok ∧
      t.blk = s.blk ∧ t.uerr = s.uerr ∧ t.prd = s.prd ∧ t.brd = s.brd ∧ t.mem = s.mem ∧ sameConfig s t)

/-- spec/42_selector_inverter.md R146. The third clause says what `SYND` holds in `CHECKED`, the XOR of the positions holding
1: R130, an inference of the spec. -/
def Obligations.CorrAppliesPolicy : Prop :=
  decode 0x80000000#32 = .ok .corr ∧
  (∀ s : State, s.mode = 0 ∨ s.bstate ≠ .checked → faultsWith .corr s .sequenceError) ∧
  (∀ s : State, s.Inv → s.bstate = .checked → s.synd = onesXor s.block) ∧
  (∀ s : State, s.mode ≠ 0 → s.bstate = .checked →
    ∃ t, exec .corr s = .next t ∧
      (∀ q, 1 ≤ q → ¬ (q = s.synd ∧ q ≤ s.blen) → bitAt t.blk q = bitAt s.blk q) ∧
      (1 ≤ s.synd → s.synd ≤ s.blen → bitAt t.blk s.synd = !bitAt s.blk s.synd) ∧
      t.uerr = (if s.blen < s.synd then s.uerr + 1 else s.uerr) ∧
      t.bstate = .corrected ∧ t.status = .ok ∧
      t.synd = s.synd ∧ t.prd = s.prd ∧ t.brd = s.brd ∧ t.mem = s.mem ∧ sameConfig s t)

/-- R174. -/
def Obligations.StripAppendsData : Prop :=
  decode 0x90000000#32 = .ok .strip ∧
  (∀ s : State, s.mode = 0 ∨ s.bstate ≠ .corrected → faultsWith .strip s .sequenceError) ∧
  (∀ s : State, s.mode ≠ 0 → s.bstate = .corrected → ¬ fitsCap s.params (s.mem.pay.length + s.mode) →
    faultsWith .strip s .capacityExceeded) ∧
  (∀ s : State, s.Inv → s.bstate = .corrected → fitsCap s.params (s.mem.pay.length + s.mode) →
    ∃ t, exec .strip s = .next t ∧
      t.mem.pay.length = s.mem.pay.length + s.mode ∧ t.mem.pay.take s.mem.pay.length = s.mem.pay ∧
      (∀ i, 1 ≤ i → i ≤ s.mode → t.mem.pay[s.mem.pay.length + i - 1]? = some (bitAt s.blk (dataPos i))) ∧
      t.bstate = .empty ∧ t.status = .ok ∧
      t.blk = s.blk ∧ t.mem.msg = s.mem.msg ∧ t.mem.bits = s.mem.bits ∧ t.synd = s.synd ∧ t.uerr = s.uerr ∧
      t.prd = s.prd ∧ t.brd = s.brd ∧ sameConfig s t)

/-- R175. -/
def Obligations.PackDeliversBytes : Prop :=
  decode 0xA0000000#32 = .ok .pack ∧
  (∀ s : State, s.mode = 0 ∨ s.bstate ≠ .empty → faultsWith .pack s .sequenceError) ∧
  (∀ s : State, s.mode ≠ 0 → s.bstate = .empty →
    ∃ t, exec .pack s = .next t ∧
      t.mem.msg.length = s.mem.pay.length / 8 ∧
      (∀ i j, i < t.mem.msg.length → j < 8 →
        (t.mem.msg[i]?).map (fun x => x.getLsbD (7 - j)) = s.mem.pay[8 * i + j]?) ∧
      t.status = .ok ∧
      t.mem.pay = s.mem.pay ∧ t.mem.bits = s.mem.bits ∧ t.blk = s.blk ∧ t.bstate = s.bstate ∧ t.synd = s.synd ∧
      t.uerr = s.uerr ∧ t.prd = s.prd ∧ t.brd = s.brd ∧ sameConfig s t)

/-- R176. -/
def Obligations.EncodeEncodesStream : Prop :=
  (∀ imm : BitVec 28, decode (0xB#4 ++ imm) = .ok (.encode (sext28 imm))) ∧
  (∀ (s : State) (mode : Int), mode < 1 → faultsWith (.encode mode) s .invalidMode) ∧
  (∀ (s : State) (mode : Int), 1 ≤ mode → (s.params.modeMax.val : Int) < mode →
    faultsWith (.encode mode) s .modeUnsupported) ∧
  (∀ (s : State) (mode : Mode), mode.val ≤ s.params.modeMax.val →
    ¬ fitsCap s.params (ceildiv (8 * s.mem.msg.length) mode.val * blockLength mode) →
    faultsWith (.encode (mode.val : Int)) s .capacityExceeded) ∧
  (∀ (s : State) (mode : Mode), mode.val ≤ s.params.modeMax.val →
    fitsCap s.params (ceildiv (8 * s.mem.msg.length) mode.val * blockLength mode) →
    ∃ t, exec (.encode (mode.val : Int)) s = .next t ∧
      t.mem.bits = encodeStream s.mem.msg mode ∧ t.mem.pay = payload s.mem.msg mode ∧
      t.mode = mode.val ∧ t.pcount = parityCount mode ∧ t.blen = blockLength mode ∧
      t.synd = 0 ∧ t.uerr = 0 ∧ t.brd = 0 ∧ t.prd = ceildiv (8 * s.mem.msg.length) mode.val * mode.val ∧
      (s.mem.msg = [] → t.blk = s.blk) ∧
      (s.mem.msg ≠ [] → t.block = encodeBlock mode
        (piece (payload s.mem.msg mode) mode.val (ceildiv (8 * s.mem.msg.length) mode.val - 1))) ∧
      sameCellsAbove (blockLength mode) s t ∧
      t.bstate = .empty ∧ t.status = .ok ∧ t.mem.msg = s.mem.msg ∧ t.params = s.params ∧ t.host = s.host)

/-- R177. -/
def Obligations.DecodeDecodesStream : Prop :=
  (∀ imm : BitVec 28, decode (0xC#4 ++ imm) = .ok (.decode (sext28 imm))) ∧
  (∀ (s : State) (mode : Int), mode < 1 → faultsWith (.decode mode) s .invalidMode) ∧
  (∀ (s : State) (mode : Int), 1 ≤ mode → (s.params.modeMax.val : Int) < mode →
    faultsWith (.decode mode) s .modeUnsupported) ∧
  (∀ (s : State) (mode : Mode), mode.val ≤ s.params.modeMax.val →
    ∃ t, exec (.decode (mode.val : Int)) s = .next t ∧
      (t.mem.msg, t.uerr) = decodeStream s.mem.bits mode ∧
      t.mem.pay = (decodedBlocks s.mem.bits mode).flatMap Prod.fst ∧
      t.mode = mode.val ∧ t.pcount = parityCount mode ∧ t.blen = blockLength mode ∧
      t.prd = 0 ∧ t.brd = s.mem.bits.length / blockLength mode * blockLength mode ∧
      (s.mem.bits.length < blockLength mode → t.blk = s.blk ∧ t.synd = 0) ∧
      (blockLength mode ≤ s.mem.bits.length →
        t.synd = syndrome (parityCount mode)
          (piece s.mem.bits (blockLength mode) (s.mem.bits.length / blockLength mode - 1)) ∧
        t.block = (correct
          (piece s.mem.bits (blockLength mode) (s.mem.bits.length / blockLength mode - 1)) t.synd).1) ∧
      sameCellsAbove (blockLength mode) s t ∧
      t.bstate = .empty ∧ t.status = .ok ∧ t.mem.bits = s.mem.bits ∧ t.params = s.params ∧ t.host = s.host)

/-- spec/30_encoding.md R89: `ENCBLK` from an empty block buffer encodes the next chunk and appends it. -/
def Obligations.EncblkEncodesChunk : Prop :=
  ∀ (s : State) (configured : 1 ≤ s.mode), s.Inv → s.bstate = .empty → s.prd + s.mode ≤ s.mem.pay.length →
    fitsCap s.params (s.mem.bits.length + s.blen) →
    ∃ t, runOk Pseudo.encblk.expand s = some t ∧
      t.mem.bits = s.mem.bits ++ encodeBlock ⟨s.mode, configured⟩ (memRead s.mem.pay s.prd s.mode) ∧
      t.prd = s.prd + s.mode ∧ t.bstate = .empty ∧ t.status = .ok ∧ t.mem.msg = s.mem.msg ∧
      t.mem.pay = s.mem.pay ∧ t.synd = s.synd ∧ t.uerr = s.uerr ∧ t.brd = s.brd ∧
      sameCellsAbove s.blen s t ∧ sameConfig s t

/-- spec/30_encoding.md R89: `DECBLK` from an empty block buffer decodes the next block, counts it if it is
uncorrectable, and appends its data bits. -/
def Obligations.DecblkDecodesBlock : Prop :=
  ∀ (s : State) (configured : 1 ≤ s.mode), s.Inv → s.bstate = .empty → s.brd + s.blen ≤ s.mem.bits.length →
    fitsCap s.params (s.mem.pay.length + s.mode) →
    ∃ t, runOk Pseudo.decblk.expand s = some t ∧
      t.mem.pay = s.mem.pay ++ (decodeBlock ⟨s.mode, configured⟩ (memRead s.mem.bits s.brd s.blen)).1 ∧
      t.uerr = s.uerr + (decodeBlock ⟨s.mode, configured⟩ (memRead s.mem.bits s.brd s.blen)).2 ∧
      t.synd = syndrome s.pcount (memRead s.mem.bits s.brd s.blen) ∧
      t.brd = s.brd + s.blen ∧ t.bstate = .empty ∧ t.status = .ok ∧ t.mem.msg = s.mem.msg ∧
      t.mem.bits = s.mem.bits ∧ t.prd = s.prd ∧ sameCellsAbove s.blen s t ∧ sameConfig s t

/-- spec/43_block_codec.md R178, an inference of the spec: `ENCODE` leaves the whole state exactly as its
micro-operation call does, every component completing. -/
def Obligations.EncodeEqualsMicroCall : Prop :=
  ∀ (s : State) (mode : Mode), mode.val ≤ s.params.modeMax.val →
    fitsCap s.params (ceildiv (8 * s.mem.msg.length) mode.val * blockLength mode) →
    ∃ t, exec (.encode (mode.val : Int)) s = .next t ∧
      runOk (encodeCall (mode.val : Int) (ceildiv (8 * s.mem.msg.length) mode.val)) s = some t

/-- spec/43_block_codec.md R178, an inference of the spec: `DECODE` leaves the whole state exactly as its
micro-operation call does, every component completing, when `PAY` stays within `CAP_BITS`. -/
def Obligations.DecodeEqualsMicroCall : Prop :=
  ∀ (s : State) (mode : Mode), mode.val ≤ s.params.modeMax.val →
    fitsCap s.params (s.mem.bits.length / blockLength mode * mode.val) →
    ∃ t, exec (.decode (mode.val : Int)) s = .next t ∧
      runOk (decodeCall (mode.val : Int) (s.mem.bits.length / blockLength mode)) s = some t

/-! Faults and phases (spec/60_exceptions.md). -/

/-- R218, R219: an operation reports the first fault that applies in the order of R219 (an illegal word before
everything), `OK` only when none does, and a fault changes `STATUS` alone. That the illegal word is
then no longer among the host's pending moves is the model's choice (log 1). -/
def Obligations.FirstFaultOnlyStatus : Prop :=
  (∀ (i : Instr) (s t : State), exec i s = .next t →
    faultCondition i s t.status ∧
    (∀ c, faultCondition i s c → t.status.priority ≤ c.priority) ∧
    (t.status ≠ .ok → t = { s with status := t.status })) ∧
  (∀ (s : State) (w : Command) (e : Illegal) (rest : List HostMove), s.host = .issue w :: rest →
    decode w = .error e → step s = .next { s with host := rest, status := .illegalCommand })

/-- R214 (code 4; phases of spec/10_state.md R30): `SequenceError` exactly when there is no configuration or the phase
is not the required one, and then nothing but `STATUS` changes; a completed operation leaves the phase of R30's
table. -/
def Obligations.PhaseInterlock : Prop :=
  Status.sequenceError.code = 4 ∧
  ∀ (i : Instr) (s t : State), exec i s = .next t →
    (t.status = .sequenceError ↔ ∃ p, requiredPhase i = some p ∧ (s.mode = 0 ∨ s.bstate ≠ p)) ∧
    (t.status = .sequenceError → t = { s with status := .sequenceError }) ∧
    (t.status = .ok → t.bstate = phaseAfter i) ∧
    (t.status ≠ .ok → t.bstate = s.bstate)

/-- R215 (code 5): `Underrun` exactly when `LDCHUNK` or `LDBLK` finds no further whole chunk or block. -/
def Obligations.UnderrunExactly : Prop :=
  Status.underrun.code = 5 ∧
  ∀ (i : Instr) (s t : State), exec i s = .next t →
    (t.status = .underrun ↔ s.mode ≠ 0 ∧ s.bstate = .empty ∧
      ((i = .ldchunk ∧ s.mem.pay.length < s.prd + s.mode) ∨
        (i = .ldblk ∧ s.mem.bits.length < s.brd + s.blen)))

/-- R216 (code 6): `CapacityExceeded` exactly when the result would be longer than `CAP_BITS`; never when it is
unbounded, and never by `DECODE`. -/
def Obligations.CapacityExactly : Prop :=
  Status.capacityExceeded.code = 6 ∧
  ∀ (i : Instr) (s t : State), exec i s = .next t →
    (t.status = .capacityExceeded ↔
      (i = .unpack ∧ s.mode ≠ 0 ∧ s.bstate = .empty ∧
        ¬ fitsCap s.params (ceildiv (8 * s.mem.msg.length) s.mode * s.mode)) ∨
      (i = .stblk ∧ s.mode ≠ 0 ∧ s.bstate = .encoded ∧ ¬ fitsCap s.params (s.mem.bits.length + s.blen)) ∨
      (i = .strip ∧ s.mode ≠ 0 ∧ s.bstate = .corrected ∧ ¬ fitsCap s.params (s.mem.pay.length + s.mode)) ∨
      (∃ mode : Mode, i = .encode (mode.val : Int) ∧ mode.val ≤ s.params.modeMax.val ∧
        ¬ fitsCap s.params (ceildiv (8 * s.mem.msg.length) mode.val * blockLength mode))) ∧
    (s.params.capBits = none → t.status ≠ .capacityExceeded) ∧
    (∀ mode, i = .decode mode → t.status ≠ .capacityExceeded)

/-! What holds of all operations. -/

/-- spec/10_state.md section 5 and spec/20_memory.md section 1: each register and each space is changed by the
operations listed for it and by no other (`STATUS`, which every operation writes, has no clause; the operations that
touch `BLK` are all but `UNPACK` and `PACK`, R30); the parameters and the host's moves by none (the model's own fields,
logs 1 and 3). -/
def Obligations.OnlyListedWriters : Prop :=
  ∀ (i : Instr) (s t : State), exec i s = .next t →
    (t.mode ≠ s.mode ∨ t.pcount ≠ s.pcount ∨ t.blen ≠ s.blen →
      ∃ mode, i = .setmode mode ∨ i = .encode mode ∨ i = .decode mode) ∧
    (t.blk ≠ s.blk →
      i = .ldchunk ∨ i = .ldblk ∨ i = .synw ∨ i = .corr ∨ ∃ mode, i = .encode mode ∨ i = .decode mode) ∧
    (t.bstate ≠ s.bstate →
      i = .ldchunk ∨ i = .synw ∨ i = .stblk ∨ i = .ldblk ∨ i = .synr ∨ i = .corr ∨ i = .strip ∨
        ∃ mode, i = .setmode mode ∨ i = .encode mode ∨ i = .decode mode) ∧
    (t.synd ≠ s.synd → i = .synr ∨ ∃ mode, i = .setmode mode ∨ i = .encode mode ∨ i = .decode mode) ∧
    (t.uerr ≠ s.uerr → i = .corr ∨ ∃ mode, i = .setmode mode ∨ i = .encode mode ∨ i = .decode mode) ∧
    (t.prd ≠ s.prd → i = .ldchunk ∨ i = .unpack ∨ ∃ mode, i = .setmode mode ∨ i = .encode mode ∨ i = .decode mode) ∧
    (t.brd ≠ s.brd → i = .ldblk ∨ i = .unpack ∨ ∃ mode, i = .setmode mode ∨ i = .encode mode ∨ i = .decode mode) ∧
    (t.mem.msg ≠ s.mem.msg → i = .pack ∨ ∃ mode, i = .decode mode) ∧
    (t.mem.pay ≠ s.mem.pay →
      i = .unpack ∨ i = .strip ∨ ∃ mode, i = .setmode mode ∨ i = .encode mode ∨ i = .decode mode) ∧
    (t.mem.bits ≠ s.mem.bits → i = .stblk ∨ i = .unpack ∨ ∃ mode, i = .encode mode) ∧
    t.params = s.params ∧ t.host = s.host

/-- spec/10_state.md R34 and spec/70_reset_and_hazards.md R241 (an inference of the spec): what `ENCODE` and `DECODE`
leave depends on the operand, the parameters and the input space alone, in every register and output but `BLK`. -/
def Obligations.CallsForgetOldState : Prop :=
  ∀ (mode : Int) (s s' t t' : State), s.params = s'.params →
    (s.mem.msg = s'.mem.msg → exec (.encode mode) s = .next t → exec (.encode mode) s' = .next t' →
      t.status = t'.status ∧
      (t.status = .ok →
        t.mem.bits = t'.mem.bits ∧ t.mem.pay = t'.mem.pay ∧ t.mode = t'.mode ∧ t.pcount = t'.pcount ∧
        t.blen = t'.blen ∧ t.bstate = t'.bstate ∧ t.synd = t'.synd ∧ t.uerr = t'.uerr ∧ t.prd = t'.prd ∧
        t.brd = t'.brd)) ∧
    (s.mem.bits = s'.mem.bits → exec (.decode mode) s = .next t → exec (.decode mode) s' = .next t' →
      t.status = t'.status ∧
      (t.status = .ok →
        t.mem.msg = t'.mem.msg ∧ t.mem.pay = t'.mem.pay ∧ t.mode = t'.mode ∧ t.pcount = t'.pcount ∧
        t.blen = t'.blen ∧ t.bstate = t'.bstate ∧ t.synd = t'.synd ∧ t.uerr = t'.uerr ∧ t.prd = t'.prd ∧
        t.brd = t'.brd))

/-! The step. -/

/-- spec/30_encoding.md R86 and the model's host moves (log 1): a step whose next host move is a legal word is the
meaning of the instruction it decodes to, at the state with that move taken off. -/
def Obligations.StepRunsDecodedInstruction : Prop :=
  (∀ (s : State) (w : Command) (rest : List HostMove) (i : Instr), s.host = .issue w :: rest → decode w = .ok i →
    step s = exec i { s with host := rest }) ∧
  (∀ (s : State) (nbits w : Nat) (i : Instr), decodeTableWord nbits w = some i →
    step (s.withFetchWord nbits w) = exec i s)

/-- spec/20_memory.md R62, spec/70_reset_and_hazards.md R240, and the model's choices and inferences of logs 1, 2, 11 and
17: what the host's moves between operations do (that a write changes nothing but its space is log 17), and that nothing
happens when it makes none. `BLK` after reset is not stated. -/
def Obligations.HostMovesBetweenOperations : Prop :=
  (∀ s : State, s.host = [] → step s = .next s) ∧
  (∀ (s : State) (m : List Byte) (rest : List HostMove), s.host = .writeMsg m :: rest →
    fitsCap s.params (8 * m.length) →
    step s = .next { s with host := rest, mem := { s.mem with msg := m } }) ∧
  (∀ (s : State) (b : List Bit) (rest : List HostMove), s.host = .writeBits b :: rest →
    fitsCap s.params b.length →
    step s = .next { s with host := rest, mem := { s.mem with bits := b } }) ∧
  (∀ (s : State) (rest : List HostMove), s.host = .reset :: rest →
    ∃ t, step s = .next t ∧ t.mode = 0 ∧ t.pcount = 0 ∧ t.blen = 0 ∧ t.bstate = .empty ∧ t.synd = 0 ∧
      t.uerr = 0 ∧ t.prd = 0 ∧ t.brd = 0 ∧ t.status = .ok ∧ t.mem.msg = [] ∧ t.mem.pay = [] ∧ t.mem.bits = [] ∧
      t.params = s.params ∧ t.host = rest)

/-- spec/43_block_codec.md R179 ("every operation terminates") and the model's choice of log 7: every operation answers
a next state, and a step stops only on a host write longer than `CAP_BITS`. -/
def Obligations.NothingElseStops : Prop :=
  (∀ (i : Instr) (s : State), ∃ t, exec i s = .next t) ∧
  (∀ (s : State) (r : Refusal), step s ≠ .refused r) ∧
  (∀ (s : State) (f : Fault), step s = .fault f ↔
    ∃ rest, (∃ m, s.host = .writeMsg m :: rest ∧ ¬ fitsCap s.params (8 * m.length)) ∨
      (∃ b, s.host = .writeBits b :: rest ∧ ¬ fitsCap s.params b.length))

/-- What the spec says of the state between operations (`State.Inv`; the clause on the form of `BLK` is the model's, log
5) is kept by every step, from every state that has it. -/
def Obligations.StepKeepsInvariant : Prop :=
  ∀ s t : State, s.Inv → step s = .next t → t.Inv

/-- Every engine with legal parameters has the invariant after reset, `State.reset` among them. -/
def Obligations.ResetHasInvariant : Prop :=
  (∀ (p : Params) (moves : List HostMove), p.wf = true → (State.powerOn p moves).Inv) ∧ State.reset.Inv

/-- spec/10_state.md R36 (`BLK`, left unspecified there, is not stated): the registers and spaces after reset, and that
every micro-operation but `SETMODE` raises `SequenceError` there. -/
def Obligations.ResetRefusesMicroOperations : Prop :=
  ∀ (p : Params) (moves : List HostMove),
    ((State.powerOn p moves).mode = 0 ∧ (State.powerOn p moves).pcount = 0 ∧ (State.powerOn p moves).blen = 0 ∧
      (State.powerOn p moves).bstate = .empty ∧ (State.powerOn p moves).synd = 0 ∧
      (State.powerOn p moves).uerr = 0 ∧ (State.powerOn p moves).prd = 0 ∧ (State.powerOn p moves).brd = 0 ∧
      (State.powerOn p moves).status = .ok ∧ (State.powerOn p moves).mem = ⟨[], [], []⟩) ∧
    ∀ i ph, requiredPhase i = some ph → faultsWith i (State.powerOn p moves) .sequenceError

/-- spec/30_encoding.md R90: HAM's `encode` and `decode` as the host's moves: write the input space, issue the one
command word, read the output space if `STATUS = OK`; a mode below 1 fails. The list of moves is the model's choice (log
1), what a host write changes its inference (log 17). -/
def Obligations.HamCallsByHostMoves : Prop :=
  (∀ (s : State) (m : List Byte) (mode : Mode) (rest : List HostMove), mode.val ≤ s.params.modeMax.val →
    s.params.wf = true → s.host = .writeMsg m :: .issue (encode (.encode (mode.val : Int))) :: rest →
    fitsCap s.params (8 * m.length) → fitsCap s.params (ceildiv (8 * m.length) mode.val * blockLength mode) →
    ∃ t u, step s = .next t ∧ step t = .next u ∧ u.status = .ok ∧ u.mem.bits = encodeStream m mode ∧
      u.host = rest) ∧
  (∀ (s : State) (b : List Bit) (mode : Mode) (rest : List HostMove), mode.val ≤ s.params.modeMax.val →
    s.params.wf = true → s.host = .writeBits b :: .issue (encode (.decode (mode.val : Int))) :: rest →
    fitsCap s.params b.length →
    ∃ t u, step s = .next t ∧ step t = .next u ∧ u.status = .ok ∧ (u.mem.msg, u.uerr) = decodeStream b mode ∧
      u.host = rest) ∧
  (∀ (s : State) (mode : Int) (rest : List HostMove), modeFits mode = true → mode < 1 →
    (s.host = .issue (encode (.encode mode)) :: rest ∨ s.host = .issue (encode (.decode mode)) :: rest) →
    step s = .next { s with host := rest, status := .invalidMode })
end

