-- ==== Sys2Proof/Laws/Bits.lean ====
section
/-! SUPPORT. The small lemmas of the sequence operations, of the canonical register file and of the codec's functions. -/

namespace Sys2Proof.Machine

/-! Reading and writing a space. -/

@[simp] theorem length_memRead {α : Type} (S : List α) (a n : Nat) : (memRead S a n).length = min n (S.length - a) := by
  simp [memRead]

theorem getElem?_memRead {α : Type} (S : List α) (a n j : Nat) :
    (memRead S a n)[j]? = if j < n then S[a + j]? else none := by
  simp [memRead, List.getElem?_take]

@[simp] theorem memWrite_at_end {α : Type} (S : List α) (n : Nat) (v : List α) :
    memWrite S S.length n v = S ++ v := by
  simp [memWrite]

@[simp] theorem length_zeros (n : Nat) : (zeros n).length = n := by simp [zeros]

/-! Positions of a block. -/

@[simp] theorem length_setAt (B : List Bit) (q : Nat) (v : Bit) : (setAt B q v).length = B.length := by simp [setAt]

@[simp] theorem length_invertAt (B : List Bit) (q : Nat) : (invertAt B q).length = B.length := by simp [invertAt]

theorem bitAt_setAt_same (B : List Bit) (q : Nat) (v : Bit) (h1 : 1 ≤ q) (h2 : q ≤ B.length) :
    bitAt (setAt B q v) q = v := by
  have h : q - 1 < B.length := by omega
  simp [bitAt, setAt, List.getD_eq_getElem?_getD, h]

theorem bitAt_setAt_other (B : List Bit) (q r : Nat) (v : Bit) (h1 : 1 ≤ q) (h2 : 1 ≤ r) (h : q ≠ r) :
    bitAt (setAt B q v) r = bitAt B r := by
  have hne : q - 1 ≠ r - 1 := by omega
  simp [bitAt, setAt, List.getD_eq_getElem?_getD, List.getElem?_set_ne hne]

/-! Exactly `n` cells. -/

@[simp] theorem length_fit (n : Nat) (B : List Bit) : (fit n B).length = n := by
  induction n generalizing B with
  | zero => rfl
  | succ n ih => cases B <;> simp [fit, ih]

theorem getD_fit (n : Nat) (B : List Bit) (j : Nat) : (fit n B).getD j false = if j < n then B.getD j false else false := by
  induction n generalizing B j with
  | zero => simp [fit]
  | succ n ih =>
    cases B with
    | nil =>
      cases j with
      | zero => simp [fit]
      | succ j => simpa [fit] using ih [] j
    | cons b bs =>
      cases j with
      | zero => simp [fit]
      | succ j => simpa [fit] using ih bs j

theorem fit_of_length (B : List Bit) (n : Nat) (h : B.length = n) : fit n B = B := by
  induction n generalizing B with
  | zero => simp [fit, List.length_eq_zero_iff.mp h]
  | succ n ih =>
    cases B with
    | nil => simp at h
    | cons b bs => simp [fit, ih bs (by simpa using h)]

/-- Two blocks of one length with equal cells are equal. -/
theorem block_ext {A B : List Bit} (hl : A.length = B.length) (h : ∀ j, A.getD j false = B.getD j false) : A = B := by
  apply List.ext_getElem hl
  intro j h1 h2
  have := h j
  simpa [List.getD_eq_getElem?_getD, h1, h2] using this

/-! The canonical register file. -/

theorem getD_trimZeros (B : List Bit) (j : Nat) : (trimZeros B).getD j false = B.getD j false := by
  induction B generalizing j with
  | nil => rfl
  | cons b bs ih =>
    by_cases h : b = false ∧ trimZeros bs = []
    · have hz : trimZeros (b :: bs) = [] := by simp [trimZeros, consTrim, h]
      rw [hz]
      cases j with
      | zero => simp [h.1]
      | succ j => simpa [h.2] using ih j
    · have hz : trimZeros (b :: bs) = b :: trimZeros bs := by rw [trimZeros, consTrim, if_neg h]
      rw [hz]
      cases j with
      | zero => rfl
      | succ j => simpa using ih j

theorem length_trimZeros_le (B : List Bit) : (trimZeros B).length ≤ B.length := by
  induction B with
  | nil => simp [trimZeros]
  | cons b bs ih =>
    by_cases h : b = false ∧ trimZeros bs = []
    · simp [trimZeros, consTrim, h]
    · rw [trimZeros, consTrim, if_neg h]
      simpa using ih

theorem trimZeros_idem (B : List Bit) : trimZeros (trimZeros B) = trimZeros B := by
  induction B with
  | nil => rfl
  | cons b bs ih =>
    by_cases h : b = false ∧ trimZeros bs = []
    · simp [trimZeros, consTrim, h]
    · have hz : trimZeros (b :: bs) = b :: trimZeros bs := by rw [trimZeros, consTrim, if_neg h]
      rw [hz, trimZeros, ih, consTrim, if_neg h]

/-- Register files in canonical form with equal cells are equal data. -/
theorem trimZeros_congr {A B : List Bit} (h : ∀ j, A.getD j false = B.getD j false) : trimZeros A = trimZeros B := by
  induction A generalizing B with
  | nil =>
    have hB : ∀ C : List Bit, (∀ j, C.getD j false = false) → trimZeros C = [] := by
      intro C
      induction C with
      | nil => intro _; rfl
      | cons c cs ih =>
        intro hC
        have h0 : c = false := by simpa using hC 0
        have ht := ih fun j => by simpa using hC (j + 1)
        simp [trimZeros, consTrim, h0, ht]
    exact (hB B fun j => by simpa using (h j).symm).symm
  | cons a as ih =>
    cases B with
    | nil =>
      have h0 : a = false := by simpa using h 0
      have ht : trimZeros as = trimZeros [] := ih fun j => by simpa using h (j + 1)
      simp [trimZeros, consTrim, h0, ht]
    | cons b bs =>
      have h0 : a = b := by simpa using h 0
      have ht : trimZeros as = trimZeros bs := ih fun j => by simpa using h (j + 1)
      simp [trimZeros, consTrim, h0, ht]

@[simp] theorem length_blkRead (blk : List Bit) (L : Nat) : (blkRead blk L).length = L := length_fit L blk

theorem bitAt_blkRead (blk : List Bit) (L q : Nat) (h1 : 1 ≤ q) (h2 : q ≤ L) : bitAt (blkRead blk L) q = bitAt blk q := by
  have h : q - 1 < L := by omega
  simp only [bitAt, blkRead, getD_fit, h, if_true]

/-- What a store leaves in each cell: the stored bits in 1 to `L`, the old ones above. -/
theorem getD_blkStore (blk : List Bit) (L : Nat) (cells : List Bit) (j : Nat) :
    (blkStore blk L cells).getD j false = if j < L then cells.getD j false else blk.getD j false := by
  rw [blkStore, getD_trimZeros]
  by_cases h : j < L
  · rw [List.getD_append _ _ _ _ (by simpa using h), getD_fit]
    simp [h]
  · rw [List.getD_append_right _ _ _ _ (by simpa using h)]
    have e : L + (j - L) = j := by omega
    simp [List.getD_eq_getElem?_getD, h, e]

theorem bitAt_blkStore_above (blk : List Bit) (L : Nat) (cells : List Bit) (q : Nat) (h : L < q) :
    bitAt (blkStore blk L cells) q = bitAt blk q := by
  have h' : ¬ q - 1 < L := by omega
  simp only [bitAt, getD_blkStore, h', if_false]

theorem blkRead_blkStore (blk : List Bit) (L : Nat) (cells : List Bit) : blkRead (blkStore blk L cells) L = fit L cells := by
  apply block_ext (by simp)
  intro j
  simp only [blkRead, getD_fit, getD_blkStore]
  by_cases h : j < L <;> simp [h]

/-- A second store of the same length replaces the first. -/
theorem blkStore_blkStore (blk : List Bit) (L : Nat) (a b : List Bit) :
    blkStore (blkStore blk L a) L b = blkStore blk L b := by
  have key : trimZeros (blkStore (blkStore blk L a) L b) = trimZeros (blkStore blk L b) := by
    apply trimZeros_congr
    intro j
    simp only [getD_blkStore]
    by_cases h : j < L <;> simp [h]
  simpa [blkStore, trimZeros_idem] using key

theorem length_blkStore_le (blk : List Bit) (L n : Nat) (cells : List Bit) (hL : L ≤ n) (hb : blk.length ≤ n) :
    (blkStore blk L cells).length ≤ n := by
  refine (length_trimZeros_le _).trans ?_
  simp
  omega

/-! Bytes and bits. -/

@[simp] theorem length_bitsOfByte (m : Byte) : (bitsOfByte m).length = 8 := rfl

theorem byteOfBits_bitsOfByte (m : Byte) :
    byteOfBits (m.getLsbD 7) (m.getLsbD 6) (m.getLsbD 5) (m.getLsbD 4) (m.getLsbD 3) (m.getLsbD 2) (m.getLsbD 1)
      (m.getLsbD 0) = m := by
  revert m
  decide +kernel

/-! The block functions keep lengths. -/

@[simp] theorem length_writeSlot (B : List Bit) (s : Nat) : (writeSlot B s).length = B.length := by simp [writeSlot]

@[simp] theorem length_strip (mode : Mode) (B : List Bit) : (strip mode B).length = mode.val := by simp [strip]

theorem length_insertSlot (B : List Bit) (s : Nat) (h : 2 ^ s - 1 ≤ B.length) : (insertSlot B s).length = B.length + 1 := by
  simp only [insertSlot, parityPos]
  exact List.length_insertIdx_of_le_length h _

@[simp] theorem length_correct (B : List Bit) (syn : Nat) : (correct B syn).1.length = B.length := by
  unfold correct
  split
  · rfl
  · split <;> simp

/-- XOR of the covered cells of a concatenation. -/
theorem sindFrom_append (s q : Nat) (A B : List Bit) :
    sindFrom s q (A ++ B) = (sindFrom s q A ^^ sindFrom s (q + A.length) B) := by
  induction A generalizing q with
  | nil => simp [sindFrom]
  | cons a as ih => simp [sindFrom, ih, Nat.add_assoc, Nat.add_comm 1]

/-! The two searches of the layout calculator. -/

/-- The search answers its first candidate that fits, when one is within the fuel. -/
theorem leastParity_spec (m fuel r : Nat) (h : m + (r + fuel) + 1 ≤ 2 ^ (r + fuel)) :
    r ≤ leastParity fuel r m ∧ m + leastParity fuel r m + 1 ≤ 2 ^ leastParity fuel r m ∧
      ∀ x, r ≤ x → x < leastParity fuel r m → 2 ^ x < m + x + 1 := by
  induction fuel generalizing r with
  | zero => exact ⟨le_rfl, by simpa [leastParity] using h, fun x h1 h2 => by simp [leastParity] at h2; omega⟩
  | succ fuel ih =>
    by_cases hr : m + r + 1 ≤ 2 ^ r
    · have e : leastParity (fuel + 1) r m = r := by simp [leastParity, hr]
      rw [e]
      exact ⟨le_rfl, hr, fun x h1 h2 => by omega⟩
    · have e : leastParity (fuel + 1) r m = leastParity fuel (r + 1) m := by simp [leastParity, hr]
      rw [e]
      obtain ⟨h1, h2, h3⟩ := ih (r + 1) (by rwa [Nat.add_assoc r 1 fuel, Nat.add_comm 1 fuel])
      refine ⟨by omega, h2, fun x hx1 hx2 => ?_⟩
      by_cases hx : x = r
      · subst hx; omega
      · exact h3 x (by omega) hx2

/-- The two searches of the layout calculator answer alike: `i + t < 2^t` and `i + t + 1 <= 2^t` are one condition. -/
theorem leastShift_eq_leastParity (fuel t i : Nat) : leastShift fuel t i = leastParity fuel t i := by
  induction fuel generalizing t with
  | zero => rfl
  | succ fuel ih => simp [leastShift, leastParity, ih]

/-- `mode + 1` candidates are enough. -/
theorem parity_fuel (m : Nat) : m + (m + 1) + 1 ≤ 2 ^ (m + 1) := by
  induction m with
  | zero => decide
  | succ m ih =>
    have : 2 ^ (m + 1 + 1) = 2 * 2 ^ (m + 1) := by ring
    omega

end Sys2Proof.Machine
end

