-- ==== Sys2Proof/Laws/State.lean ====
section
/-! SUPPORT. One lemma per field per update of State and Memory, each true by rfl. -/

namespace Sys2Proof.Machine

/-! The spaces. -/
@[simp] theorem Memory.setMsg_msg (m : Memory) (v : List Byte) : (m.setMsg v).msg = v := rfl
@[simp] theorem Memory.setMsg_pay (m : Memory) (v : List Byte) : (m.setMsg v).pay = m.pay := rfl
@[simp] theorem Memory.setMsg_bits (m : Memory) (v : List Byte) : (m.setMsg v).bits = m.bits := rfl
@[simp] theorem Memory.setPay_msg (m : Memory) (v : List Bit) : (m.setPay v).msg = m.msg := rfl
@[simp] theorem Memory.setPay_pay (m : Memory) (v : List Bit) : (m.setPay v).pay = v := rfl
@[simp] theorem Memory.setPay_bits (m : Memory) (v : List Bit) : (m.setPay v).bits = m.bits := rfl
@[simp] theorem Memory.setBits_msg (m : Memory) (v : List Bit) : (m.setBits v).msg = m.msg := rfl
@[simp] theorem Memory.setBits_pay (m : Memory) (v : List Bit) : (m.setBits v).pay = m.pay := rfl
@[simp] theorem Memory.setBits_bits (m : Memory) (v : List Bit) : (m.setBits v).bits = v := rfl
@[simp] theorem Memory.appendPay_msg (m : Memory) (n : Nat) (v : List Bit) : (m.appendPay n v).msg = m.msg := rfl
@[simp] theorem Memory.appendPay_pay (m : Memory) (n : Nat) (v : List Bit) : (m.appendPay n v).pay = memWrite m.pay m.pay.length n v := rfl
@[simp] theorem Memory.appendPay_bits (m : Memory) (n : Nat) (v : List Bit) : (m.appendPay n v).bits = m.bits := rfl
@[simp] theorem Memory.appendBits_msg (m : Memory) (n : Nat) (v : List Bit) : (m.appendBits n v).msg = m.msg := rfl
@[simp] theorem Memory.appendBits_pay (m : Memory) (n : Nat) (v : List Bit) : (m.appendBits n v).pay = m.pay := rfl
@[simp] theorem Memory.appendBits_bits (m : Memory) (n : Nat) (v : List Bit) : (m.appendBits n v).bits = memWrite m.bits m.bits.length n v := rfl

/-! The registers. -/

@[simp] theorem State.setStatus_params (s : State) (c : Status) : (s.setStatus c).params = s.params := rfl
@[simp] theorem State.setStatus_mode (s : State) (c : Status) : (s.setStatus c).mode = s.mode := rfl
@[simp] theorem State.setStatus_pcount (s : State) (c : Status) : (s.setStatus c).pcount = s.pcount := rfl
@[simp] theorem State.setStatus_blen (s : State) (c : Status) : (s.setStatus c).blen = s.blen := rfl
@[simp] theorem State.setStatus_blk (s : State) (c : Status) : (s.setStatus c).blk = s.blk := rfl
@[simp] theorem State.setStatus_bstate (s : State) (c : Status) : (s.setStatus c).bstate = s.bstate := rfl
@[simp] theorem State.setStatus_synd (s : State) (c : Status) : (s.setStatus c).synd = s.synd := rfl
@[simp] theorem State.setStatus_uerr (s : State) (c : Status) : (s.setStatus c).uerr = s.uerr := rfl
@[simp] theorem State.setStatus_prd (s : State) (c : Status) : (s.setStatus c).prd = s.prd := rfl
@[simp] theorem State.setStatus_brd (s : State) (c : Status) : (s.setStatus c).brd = s.brd := rfl
@[simp] theorem State.setStatus_status (s : State) (c : Status) : (s.setStatus c).status = c := rfl
@[simp] theorem State.setStatus_mem (s : State) (c : Status) : (s.setStatus c).mem = s.mem := rfl
@[simp] theorem State.setStatus_host (s : State) (c : Status) : (s.setStatus c).host = s.host := rfl

@[simp] theorem State.setPhase_params (s : State) (p : Phase) : (s.setPhase p).params = s.params := rfl
@[simp] theorem State.setPhase_mode (s : State) (p : Phase) : (s.setPhase p).mode = s.mode := rfl
@[simp] theorem State.setPhase_pcount (s : State) (p : Phase) : (s.setPhase p).pcount = s.pcount := rfl
@[simp] theorem State.setPhase_blen (s : State) (p : Phase) : (s.setPhase p).blen = s.blen := rfl
@[simp] theorem State.setPhase_blk (s : State) (p : Phase) : (s.setPhase p).blk = s.blk := rfl
@[simp] theorem State.setPhase_bstate (s : State) (p : Phase) : (s.setPhase p).bstate = p := rfl
@[simp] theorem State.setPhase_synd (s : State) (p : Phase) : (s.setPhase p).synd = s.synd := rfl
@[simp] theorem State.setPhase_uerr (s : State) (p : Phase) : (s.setPhase p).uerr = s.uerr := rfl
@[simp] theorem State.setPhase_prd (s : State) (p : Phase) : (s.setPhase p).prd = s.prd := rfl
@[simp] theorem State.setPhase_brd (s : State) (p : Phase) : (s.setPhase p).brd = s.brd := rfl
@[simp] theorem State.setPhase_status (s : State) (p : Phase) : (s.setPhase p).status = s.status := rfl
@[simp] theorem State.setPhase_mem (s : State) (p : Phase) : (s.setPhase p).mem = s.mem := rfl
@[simp] theorem State.setPhase_host (s : State) (p : Phase) : (s.setPhase p).host = s.host := rfl

@[simp] theorem State.setSynd_params (s : State) (v : Nat) : (s.setSynd v).params = s.params := rfl
@[simp] theorem State.setSynd_mode (s : State) (v : Nat) : (s.setSynd v).mode = s.mode := rfl
@[simp] theorem State.setSynd_pcount (s : State) (v : Nat) : (s.setSynd v).pcount = s.pcount := rfl
@[simp] theorem State.setSynd_blen (s : State) (v : Nat) : (s.setSynd v).blen = s.blen := rfl
@[simp] theorem State.setSynd_blk (s : State) (v : Nat) : (s.setSynd v).blk = s.blk := rfl
@[simp] theorem State.setSynd_bstate (s : State) (v : Nat) : (s.setSynd v).bstate = s.bstate := rfl
@[simp] theorem State.setSynd_synd (s : State) (v : Nat) : (s.setSynd v).synd = v := rfl
@[simp] theorem State.setSynd_uerr (s : State) (v : Nat) : (s.setSynd v).uerr = s.uerr := rfl
@[simp] theorem State.setSynd_prd (s : State) (v : Nat) : (s.setSynd v).prd = s.prd := rfl
@[simp] theorem State.setSynd_brd (s : State) (v : Nat) : (s.setSynd v).brd = s.brd := rfl
@[simp] theorem State.setSynd_status (s : State) (v : Nat) : (s.setSynd v).status = s.status := rfl
@[simp] theorem State.setSynd_mem (s : State) (v : Nat) : (s.setSynd v).mem = s.mem := rfl
@[simp] theorem State.setSynd_host (s : State) (v : Nat) : (s.setSynd v).host = s.host := rfl

@[simp] theorem State.setUerr_params (s : State) (v : Nat) : (s.setUerr v).params = s.params := rfl
@[simp] theorem State.setUerr_mode (s : State) (v : Nat) : (s.setUerr v).mode = s.mode := rfl
@[simp] theorem State.setUerr_pcount (s : State) (v : Nat) : (s.setUerr v).pcount = s.pcount := rfl
@[simp] theorem State.setUerr_blen (s : State) (v : Nat) : (s.setUerr v).blen = s.blen := rfl
@[simp] theorem State.setUerr_blk (s : State) (v : Nat) : (s.setUerr v).blk = s.blk := rfl
@[simp] theorem State.setUerr_bstate (s : State) (v : Nat) : (s.setUerr v).bstate = s.bstate := rfl
@[simp] theorem State.setUerr_synd (s : State) (v : Nat) : (s.setUerr v).synd = s.synd := rfl
@[simp] theorem State.setUerr_uerr (s : State) (v : Nat) : (s.setUerr v).uerr = v := rfl
@[simp] theorem State.setUerr_prd (s : State) (v : Nat) : (s.setUerr v).prd = s.prd := rfl
@[simp] theorem State.setUerr_brd (s : State) (v : Nat) : (s.setUerr v).brd = s.brd := rfl
@[simp] theorem State.setUerr_status (s : State) (v : Nat) : (s.setUerr v).status = s.status := rfl
@[simp] theorem State.setUerr_mem (s : State) (v : Nat) : (s.setUerr v).mem = s.mem := rfl
@[simp] theorem State.setUerr_host (s : State) (v : Nat) : (s.setUerr v).host = s.host := rfl

@[simp] theorem State.setPrd_params (s : State) (v : Nat) : (s.setPrd v).params = s.params := rfl
@[simp] theorem State.setPrd_mode (s : State) (v : Nat) : (s.setPrd v).mode = s.mode := rfl
@[simp] theorem State.setPrd_pcount (s : State) (v : Nat) : (s.setPrd v).pcount = s.pcount := rfl
@[simp] theorem State.setPrd_blen (s : State) (v : Nat) : (s.setPrd v).blen = s.blen := rfl
@[simp] theorem State.setPrd_blk (s : State) (v : Nat) : (s.setPrd v).blk = s.blk := rfl
@[simp] theorem State.setPrd_bstate (s : State) (v : Nat) : (s.setPrd v).bstate = s.bstate := rfl
@[simp] theorem State.setPrd_synd (s : State) (v : Nat) : (s.setPrd v).synd = s.synd := rfl
@[simp] theorem State.setPrd_uerr (s : State) (v : Nat) : (s.setPrd v).uerr = s.uerr := rfl
@[simp] theorem State.setPrd_prd (s : State) (v : Nat) : (s.setPrd v).prd = v := rfl
@[simp] theorem State.setPrd_brd (s : State) (v : Nat) : (s.setPrd v).brd = s.brd := rfl
@[simp] theorem State.setPrd_status (s : State) (v : Nat) : (s.setPrd v).status = s.status := rfl
@[simp] theorem State.setPrd_mem (s : State) (v : Nat) : (s.setPrd v).mem = s.mem := rfl
@[simp] theorem State.setPrd_host (s : State) (v : Nat) : (s.setPrd v).host = s.host := rfl

@[simp] theorem State.setBrd_params (s : State) (v : Nat) : (s.setBrd v).params = s.params := rfl
@[simp] theorem State.setBrd_mode (s : State) (v : Nat) : (s.setBrd v).mode = s.mode := rfl
@[simp] theorem State.setBrd_pcount (s : State) (v : Nat) : (s.setBrd v).pcount = s.pcount := rfl
@[simp] theorem State.setBrd_blen (s : State) (v : Nat) : (s.setBrd v).blen = s.blen := rfl
@[simp] theorem State.setBrd_blk (s : State) (v : Nat) : (s.setBrd v).blk = s.blk := rfl
@[simp] theorem State.setBrd_bstate (s : State) (v : Nat) : (s.setBrd v).bstate = s.bstate := rfl
@[simp] theorem State.setBrd_synd (s : State) (v : Nat) : (s.setBrd v).synd = s.synd := rfl
@[simp] theorem State.setBrd_uerr (s : State) (v : Nat) : (s.setBrd v).uerr = s.uerr := rfl
@[simp] theorem State.setBrd_prd (s : State) (v : Nat) : (s.setBrd v).prd = s.prd := rfl
@[simp] theorem State.setBrd_brd (s : State) (v : Nat) : (s.setBrd v).brd = v := rfl
@[simp] theorem State.setBrd_status (s : State) (v : Nat) : (s.setBrd v).status = s.status := rfl
@[simp] theorem State.setBrd_mem (s : State) (v : Nat) : (s.setBrd v).mem = s.mem := rfl
@[simp] theorem State.setBrd_host (s : State) (v : Nat) : (s.setBrd v).host = s.host := rfl

@[simp] theorem State.setBlk_params (s : State) (b : List Bit) : (s.setBlk b).params = s.params := rfl
@[simp] theorem State.setBlk_mode (s : State) (b : List Bit) : (s.setBlk b).mode = s.mode := rfl
@[simp] theorem State.setBlk_pcount (s : State) (b : List Bit) : (s.setBlk b).pcount = s.pcount := rfl
@[simp] theorem State.setBlk_blen (s : State) (b : List Bit) : (s.setBlk b).blen = s.blen := rfl
@[simp] theorem State.setBlk_blk (s : State) (b : List Bit) : (s.setBlk b).blk = b := rfl
@[simp] theorem State.setBlk_bstate (s : State) (b : List Bit) : (s.setBlk b).bstate = s.bstate := rfl
@[simp] theorem State.setBlk_synd (s : State) (b : List Bit) : (s.setBlk b).synd = s.synd := rfl
@[simp] theorem State.setBlk_uerr (s : State) (b : List Bit) : (s.setBlk b).uerr = s.uerr := rfl
@[simp] theorem State.setBlk_prd (s : State) (b : List Bit) : (s.setBlk b).prd = s.prd := rfl
@[simp] theorem State.setBlk_brd (s : State) (b : List Bit) : (s.setBlk b).brd = s.brd := rfl
@[simp] theorem State.setBlk_status (s : State) (b : List Bit) : (s.setBlk b).status = s.status := rfl
@[simp] theorem State.setBlk_mem (s : State) (b : List Bit) : (s.setBlk b).mem = s.mem := rfl
@[simp] theorem State.setBlk_host (s : State) (b : List Bit) : (s.setBlk b).host = s.host := rfl

@[simp] theorem State.setMem_params (s : State) (m : Memory) : (s.setMem m).params = s.params := rfl
@[simp] theorem State.setMem_mode (s : State) (m : Memory) : (s.setMem m).mode = s.mode := rfl
@[simp] theorem State.setMem_pcount (s : State) (m : Memory) : (s.setMem m).pcount = s.pcount := rfl
@[simp] theorem State.setMem_blen (s : State) (m : Memory) : (s.setMem m).blen = s.blen := rfl
@[simp] theorem State.setMem_blk (s : State) (m : Memory) : (s.setMem m).blk = s.blk := rfl
@[simp] theorem State.setMem_bstate (s : State) (m : Memory) : (s.setMem m).bstate = s.bstate := rfl
@[simp] theorem State.setMem_synd (s : State) (m : Memory) : (s.setMem m).synd = s.synd := rfl
@[simp] theorem State.setMem_uerr (s : State) (m : Memory) : (s.setMem m).uerr = s.uerr := rfl
@[simp] theorem State.setMem_prd (s : State) (m : Memory) : (s.setMem m).prd = s.prd := rfl
@[simp] theorem State.setMem_brd (s : State) (m : Memory) : (s.setMem m).brd = s.brd := rfl
@[simp] theorem State.setMem_status (s : State) (m : Memory) : (s.setMem m).status = s.status := rfl
@[simp] theorem State.setMem_mem (s : State) (m : Memory) : (s.setMem m).mem = m := rfl
@[simp] theorem State.setMem_host (s : State) (m : Memory) : (s.setMem m).host = s.host := rfl

@[simp] theorem State.setHost_params (s : State) (l : List HostMove) : (s.setHost l).params = s.params := rfl
@[simp] theorem State.setHost_mode (s : State) (l : List HostMove) : (s.setHost l).mode = s.mode := rfl
@[simp] theorem State.setHost_pcount (s : State) (l : List HostMove) : (s.setHost l).pcount = s.pcount := rfl
@[simp] theorem State.setHost_blen (s : State) (l : List HostMove) : (s.setHost l).blen = s.blen := rfl
@[simp] theorem State.setHost_blk (s : State) (l : List HostMove) : (s.setHost l).blk = s.blk := rfl
@[simp] theorem State.setHost_bstate (s : State) (l : List HostMove) : (s.setHost l).bstate = s.bstate := rfl
@[simp] theorem State.setHost_synd (s : State) (l : List HostMove) : (s.setHost l).synd = s.synd := rfl
@[simp] theorem State.setHost_uerr (s : State) (l : List HostMove) : (s.setHost l).uerr = s.uerr := rfl
@[simp] theorem State.setHost_prd (s : State) (l : List HostMove) : (s.setHost l).prd = s.prd := rfl
@[simp] theorem State.setHost_brd (s : State) (l : List HostMove) : (s.setHost l).brd = s.brd := rfl
@[simp] theorem State.setHost_status (s : State) (l : List HostMove) : (s.setHost l).status = s.status := rfl
@[simp] theorem State.setHost_mem (s : State) (l : List HostMove) : (s.setHost l).mem = s.mem := rfl
@[simp] theorem State.setHost_host (s : State) (l : List HostMove) : (s.setHost l).host = l := rfl

@[simp] theorem State.configure_params (s : State) (m : Mode) : (s.configure m).params = s.params := rfl
@[simp] theorem State.configure_mode (s : State) (m : Mode) : (s.configure m).mode = m.val := rfl
@[simp] theorem State.configure_pcount (s : State) (m : Mode) : (s.configure m).pcount = parityCount m := rfl
@[simp] theorem State.configure_blen (s : State) (m : Mode) : (s.configure m).blen = blockLength m := rfl
@[simp] theorem State.configure_blk (s : State) (m : Mode) : (s.configure m).blk = s.blk := rfl
@[simp] theorem State.configure_bstate (s : State) (m : Mode) : (s.configure m).bstate = s.bstate := rfl
@[simp] theorem State.configure_synd (s : State) (m : Mode) : (s.configure m).synd = s.synd := rfl
@[simp] theorem State.configure_uerr (s : State) (m : Mode) : (s.configure m).uerr = s.uerr := rfl
@[simp] theorem State.configure_prd (s : State) (m : Mode) : (s.configure m).prd = s.prd := rfl
@[simp] theorem State.configure_brd (s : State) (m : Mode) : (s.configure m).brd = s.brd := rfl
@[simp] theorem State.configure_status (s : State) (m : Mode) : (s.configure m).status = s.status := rfl
@[simp] theorem State.configure_mem (s : State) (m : Mode) : (s.configure m).mem = s.mem := rfl
@[simp] theorem State.configure_host (s : State) (m : Mode) : (s.configure m).host = s.host := rfl

@[simp] theorem State.storeBlock_params (s : State) (b : List Bit) : (s.storeBlock b).params = s.params := rfl
@[simp] theorem State.storeBlock_mode (s : State) (b : List Bit) : (s.storeBlock b).mode = s.mode := rfl
@[simp] theorem State.storeBlock_pcount (s : State) (b : List Bit) : (s.storeBlock b).pcount = s.pcount := rfl
@[simp] theorem State.storeBlock_blen (s : State) (b : List Bit) : (s.storeBlock b).blen = s.blen := rfl
@[simp] theorem State.storeBlock_blk (s : State) (b : List Bit) : (s.storeBlock b).blk = blkStore s.blk s.blen b := rfl
@[simp] theorem State.storeBlock_bstate (s : State) (b : List Bit) : (s.storeBlock b).bstate = s.bstate := rfl
@[simp] theorem State.storeBlock_synd (s : State) (b : List Bit) : (s.storeBlock b).synd = s.synd := rfl
@[simp] theorem State.storeBlock_uerr (s : State) (b : List Bit) : (s.storeBlock b).uerr = s.uerr := rfl
@[simp] theorem State.storeBlock_prd (s : State) (b : List Bit) : (s.storeBlock b).prd = s.prd := rfl
@[simp] theorem State.storeBlock_brd (s : State) (b : List Bit) : (s.storeBlock b).brd = s.brd := rfl
@[simp] theorem State.storeBlock_status (s : State) (b : List Bit) : (s.storeBlock b).status = s.status := rfl
@[simp] theorem State.storeBlock_mem (s : State) (b : List Bit) : (s.storeBlock b).mem = s.mem := rfl
@[simp] theorem State.storeBlock_host (s : State) (b : List Bit) : (s.storeBlock b).host = s.host := rfl

@[simp] theorem State.powerOn_params (p : Params) (l : List HostMove) : (State.powerOn p l).params = p := rfl
@[simp] theorem State.powerOn_mode (p : Params) (l : List HostMove) : (State.powerOn p l).mode = 0 := rfl
@[simp] theorem State.powerOn_pcount (p : Params) (l : List HostMove) : (State.powerOn p l).pcount = 0 := rfl
@[simp] theorem State.powerOn_blen (p : Params) (l : List HostMove) : (State.powerOn p l).blen = 0 := rfl
@[simp] theorem State.powerOn_blk (p : Params) (l : List HostMove) : (State.powerOn p l).blk = [] := rfl
@[simp] theorem State.powerOn_bstate (p : Params) (l : List HostMove) : (State.powerOn p l).bstate = .empty := rfl
@[simp] theorem State.powerOn_synd (p : Params) (l : List HostMove) : (State.powerOn p l).synd = 0 := rfl
@[simp] theorem State.powerOn_uerr (p : Params) (l : List HostMove) : (State.powerOn p l).uerr = 0 := rfl
@[simp] theorem State.powerOn_prd (p : Params) (l : List HostMove) : (State.powerOn p l).prd = 0 := rfl
@[simp] theorem State.powerOn_brd (p : Params) (l : List HostMove) : (State.powerOn p l).brd = 0 := rfl
@[simp] theorem State.powerOn_status (p : Params) (l : List HostMove) : (State.powerOn p l).status = .ok := rfl
@[simp] theorem State.powerOn_mem (p : Params) (l : List HostMove) : (State.powerOn p l).mem = ⟨[], [], []⟩ := rfl
@[simp] theorem State.powerOn_host (p : Params) (l : List HostMove) : (State.powerOn p l).host = l := rfl

end Sys2Proof.Machine
end

