-- ==== Sys2Proof/Laws/Ops.lean ====
section
/-! SUPPORT. For each shared operation the one lemma that says what it can answer, and the lemmas of the memory's
well-formedness. -/

namespace Sys2Proof.Machine

/-! Ending an operation. -/

@[simp] theorem raise_eq_next (c : Status) (s t : State) : raise c s = .next t ↔ t = s.setStatus c := by
  simp [raise, eq_comm]

@[simp] theorem complete_eq_next (s t : State) : complete s = .next t ↔ t = s.setStatus .ok := by
  simp [complete, eq_comm]

/-! Capacity. -/

/-- The capacity test is the test "within `CAP_BITS`". -/
theorem fitsCap_iff (p : Params) (n : Nat) : fitsCap p n ↔ exceedsCap p n = false := by
  unfold fitsCap exceedsCap
  cases h : p.capBits with
  | none => simp
  | some c => simp

theorem exceedsCap_mono {p : Params} {m n : Nat} (h : m ≤ n) (hn : exceedsCap p n = false) : exceedsCap p m = false :=
  (fitsCap_iff p m).mp fun c hc => h.trans ((fitsCap_iff p n).mpr hn c hc)

theorem memory_wf_iff (p : Params) (m : Memory) :
    m.wf p = true ↔ exceedsCap p (8 * m.msg.length) = false ∧ exceedsCap p m.pay.length = false ∧
      exceedsCap p m.bits.length = false := by
  simp [Memory.wf, Bool.and_eq_true, and_assoc]

/-! The guards: what each answers, and that it lets the operation through exactly when its condition holds. -/

theorem inPhase_cases {p : Phase} {s t : State} {k : Mode → Result} (h : inPhase p s k = .next t) :
    ((s.mode = 0 ∨ s.bstate ≠ p) ∧ t = s.setStatus .sequenceError) ∨
    ∃ m : Mode, s.mode = m.val ∧ s.bstate = p ∧ k m = .next t := by
  unfold inPhase at h
  split at h
  · exact .inl ⟨‹_›, by simpa using h⟩
  · rename_i hn
    exact .inr ⟨_, rfl, by_contra fun hp => hn (.inr hp), h⟩

theorem inPhase_of {p : Phase} {s : State} {k : Mode → Result} (m : Mode) (hm : s.mode = m.val) (hp : s.bstate = p) :
    inPhase p s k = k m := by
  have hm0 : s.mode ≠ 0 := by have := m.property; omega
  have e : ¬ (s.mode = 0 ∨ s.bstate ≠ p) := by simp [hm0, hp]
  rw [inPhase, dif_neg e]
  congr 1
  exact Subtype.ext hm

theorem inPhase_refuses {p : Phase} {s : State} {k : Mode → Result} (h : s.mode = 0 ∨ s.bstate ≠ p) :
    inPhase p s k = .next (s.setStatus .sequenceError) := by
  simp [inPhase, h, raise]

theorem inSpace_cases {cursor n len : Nat} {s t : State} {k : Result} (h : inSpace cursor n len s k = .next t) :
    (len < cursor + n ∧ t = s.setStatus .underrun) ∨ (cursor + n ≤ len ∧ k = .next t) := by
  unfold inSpace at h
  split at h
  · exact .inl ⟨‹_›, by simpa using h⟩
  · exact .inr ⟨by omega, h⟩

theorem inSpace_of {cursor n len : Nat} {s : State} {k : Result} (h : cursor + n ≤ len) : inSpace cursor n len s k = k := by
  simp [inSpace, Nat.not_lt.mpr h]

theorem inSpace_refuses {cursor n len : Nat} {s : State} {k : Result} (h : len < cursor + n) :
    inSpace cursor n len s k = .next (s.setStatus .underrun) := by
  simp [inSpace, h, raise]

theorem inCapacity_cases {n : Nat} {s t : State} {k : Result} (h : inCapacity n s k = .next t) :
    (¬ fitsCap s.params n ∧ t = s.setStatus .capacityExceeded) ∨ (fitsCap s.params n ∧ k = .next t) := by
  unfold inCapacity at h
  split at h
  · rename_i hx
    exact .inl ⟨fun hf => by simp [(fitsCap_iff _ _).mp hf] at hx, by simpa using h⟩
  · rename_i hx
    exact .inr ⟨(fitsCap_iff _ _).mpr (by simpa using hx), h⟩

theorem inCapacity_of {n : Nat} {s : State} {k : Result} (h : fitsCap s.params n) : inCapacity n s k = k := by
  simp [inCapacity, (fitsCap_iff _ _).mp h]

theorem inCapacity_refuses {n : Nat} {s : State} {k : Result} (h : ¬ fitsCap s.params n) :
    inCapacity n s k = .next (s.setStatus .capacityExceeded) := by
  have hx : exceedsCap s.params n = true := by simpa [fitsCap_iff] using h
  simp [inCapacity, hx, raise]

/-- The three answers of an operation with a mode operand. -/
theorem withMode_cases {mode : Int} {s t : State} {k : Mode → Result} (h : withMode mode s k = .next t) :
    (mode < 1 ∧ t = s.setStatus .invalidMode) ∨
    (1 ≤ mode ∧ (s.params.modeMax.val : Int) < mode ∧ t = s.setStatus .modeUnsupported) ∨
    ∃ m : Mode, mode = m.val ∧ m.val ≤ s.params.modeMax.val ∧ k m = .next t := by
  unfold withMode classifyMode at h
  split at h
  · rename_i c hc
    split at hc
    · cases hc
      exact .inl ⟨‹_›, by simpa using h⟩
    · split at hc
      · cases hc
        exact .inr (.inl ⟨by omega, ‹_›, by simpa using h⟩)
      · cases hc
  · rename_i m hc
    split at hc
    · cases hc
    · split at hc
      · cases hc
      · cases hc
        exact .inr (.inr ⟨⟨mode.toNat, by omega⟩, by simp only; omega, by simp only; omega, h⟩)

theorem withMode_of {m : Mode} {s : State} {k : Mode → Result} (h : m.val ≤ s.params.modeMax.val) :
    withMode (m.val : Int) s k = k m := by
  have e1 : ¬ (m.val : Int) < 1 := by have := m.property; omega
  have e2 : ¬ (s.params.modeMax.val : Int) < (m.val : Int) := by omega
  simp only [withMode, classifyMode, dif_neg e1, if_neg e2, Int.toNat_natCast]

theorem withMode_invalid {mode : Int} {s : State} {k : Mode → Result} (h : mode < 1) :
    withMode mode s k = .next (s.setStatus .invalidMode) := by
  simp [withMode, classifyMode, h, raise]

theorem withMode_unsupported {mode : Int} {s : State} {k : Mode → Result} (h1 : 1 ≤ mode)
    (h2 : (s.params.modeMax.val : Int) < mode) : withMode mode s k = .next (s.setStatus .modeUnsupported) := by
  have e : ¬ mode < 1 := by omega
  simp [withMode, classifyMode, e, h2, raise]

/-! The correction policy on the register file: its three branches. -/

theorem correctBlk_zero (blk : List Bit) (L u : Nat) : correctBlk blk L 0 u = (blk, u) := by simp [correctBlk]

theorem correctBlk_inside {blk : List Bit} {L syn u : Nat} (h1 : 1 ≤ syn) (h2 : syn ≤ L) :
    correctBlk blk L syn u = (blkStore blk L (invertAt (blkRead blk L) syn), u) := by
  have e : syn ≠ 0 := by omega
  simp [correctBlk, e, h2]

theorem correctBlk_outside {blk : List Bit} {L syn u : Nat} (h : L < syn) : correctBlk blk L syn u = (blk, u + 1) := by
  have e : syn ≠ 0 := by omega
  have e2 : ¬ syn ≤ L := by omega
  simp [correctBlk, e, e2]

/-! Every memory operation keeps the length limits, under the test its operation makes; every write of the register file
gives the canonical form. -/

theorem setMsg_keeps_wf {p : Params} {m : Memory} {v : List Byte} (hm : m.wf p = true)
    (hv : exceedsCap p (8 * v.length) = false) : (m.setMsg v).wf p = true := by
  rw [memory_wf_iff] at hm ⊢
  exact ⟨hv, hm.2⟩

theorem setPay_keeps_wf {p : Params} {m : Memory} {v : List Bit} (hm : m.wf p = true)
    (hv : exceedsCap p v.length = false) : (m.setPay v).wf p = true := by
  rw [memory_wf_iff] at hm ⊢
  exact ⟨hm.1, hv, hm.2.2⟩

theorem setBits_keeps_wf {p : Params} {m : Memory} {v : List Bit} (hm : m.wf p = true)
    (hv : exceedsCap p v.length = false) : (m.setBits v).wf p = true := by
  rw [memory_wf_iff] at hm ⊢
  exact ⟨hm.1, hm.2.1, hv⟩

theorem appendPay_keeps_wf {p : Params} {m : Memory} {n : Nat} {v : List Bit} (hm : m.wf p = true)
    (hv : exceedsCap p (m.pay.length + v.length) = false) : (m.appendPay n v).wf p = true :=
  setPay_keeps_wf hm (by simpa using hv)

theorem appendBits_keeps_wf {p : Params} {m : Memory} {n : Nat} {v : List Bit} (hm : m.wf p = true)
    (hv : exceedsCap p (m.bits.length + v.length) = false) : (m.appendBits n v).wf p = true :=
  setBits_keeps_wf hm (by simpa using hv)

theorem reset_memory_wf (p : Params) (moves : List HostMove) : (State.powerOn p moves).mem.wf p = true := by
  rw [memory_wf_iff]
  cases h : p.capBits <;> simp [exceedsCap, h]

theorem blkStore_wf (blk : List Bit) (L : Nat) (cells : List Bit) : blkWf (blkStore blk L cells) = true := by
  simp [blkWf, blkStore, trimZeros_idem]

theorem correctBlk_wf {blk : List Bit} (L syn u : Nat) (h : blkWf blk = true) : blkWf (correctBlk blk L syn u).1 = true := by
  unfold correctBlk
  split
  · exact h
  · split
    · exact blkStore_wf _ _ _
    · exact h

/-- Canonical register files with equal cells are equal. -/
theorem blk_ext {A B : List Bit} (hA : blkWf A = true) (hB : blkWf B = true)
    (h : ∀ j, A.getD j false = B.getD j false) : A = B := by
  have eA : trimZeros A = A := by simpa [blkWf] using hA
  have eB : trimZeros B = B := by simpa [blkWf] using hB
  rw [← eA, ← eB]
  exact trimZeros_congr h

/-! The host's moves. -/

@[simp] theorem nextMove_cons (s : State) (m : HostMove) (rest : List HostMove) (h : s.host = m :: rest) :
    nextMove s = some (m, s.setHost rest) := by
  simp [nextMove, h]

@[simp] theorem nextMove_none (s : State) (h : s.host = []) : nextMove s = none := by simp [nextMove, h]

end Sys2Proof.Machine
end

