-- ==== Sys2Proof/Laws/PerInstr.lean ====
section
/-! SUPPORT. Statements made per instruction: the word of an instruction lies in its row of the operation map
(spec/30_encoding.md R81). -/

namespace Sys2Proof

/-- The `match` column of R81. -/
def rowMatch : Instr → Command
  | .setmode _ => 0x10000000#32
  | .unpack => 0x20000000#32
  | .ldchunk => 0x30000000#32
  | .synw => 0x40000000#32
  | .stblk => 0x50000000#32
  | .ldblk => 0x60000000#32
  | .synr => 0x70000000#32
  | .corr => 0x80000000#32
  | .strip => 0x90000000#32
  | .pack => 0xA0000000#32
  | .encode _ => 0xB0000000#32
  | .decode _ => 0xC0000000#32

/-- The `mask` column of R81. -/
def rowMask : Instr → Command
  | .setmode _ => 0xF0000000#32
  | .unpack => 0xFFFFFFFF#32
  | .ldchunk => 0xFFFFFFFF#32
  | .synw => 0xFFFFFFFF#32
  | .stblk => 0xFFFFFFFF#32
  | .ldblk => 0xFFFFFFFF#32
  | .synr => 0xFFFFFFFF#32
  | .corr => 0xFFFFFFFF#32
  | .strip => 0xFFFFFFFF#32
  | .pack => 0xFFFFFFFF#32
  | .encode _ => 0xF0000000#32
  | .decode _ => 0xF0000000#32

/-- A word with a mode operand, masked to its `op` field. -/
theorem commandWord_and_opMask (op : BitVec 4) (imm : BitVec 28) :
    commandWord op imm &&& 0xF0000000#32 = op ++ 0#28 := by
  apply BitVec.eq_of_getLsbD_eq
  intro j hj
  have hm : (0xF0000000#32).getLsbD j = decide (28 ≤ j) := by
    revert j
    decide
  rw [BitVec.getLsbD_and, commandWord, BitVec.getLsbD_append, BitVec.getLsbD_append, hm]
  by_cases h : j < 28
  · simp [h]
  · simp [h, Nat.le_of_not_lt h]

namespace Laws.TableRow

/-- "A word `w` selects the row whose `(w AND mask) = match`" (R81). -/
def Statement (i : Instr) : Prop := encode i &&& rowMask i = rowMatch i

theorem setmode (mode : Int) : Statement (.setmode mode) := commandWord_and_opMask 1#4 _
theorem unpack : Statement .unpack := rfl
theorem ldchunk : Statement .ldchunk := rfl
theorem synw : Statement .synw := rfl
theorem stblk : Statement .stblk := rfl
theorem ldblk : Statement .ldblk := rfl
theorem synr : Statement .synr := rfl
theorem corr : Statement .corr := rfl
theorem strip : Statement .strip := rfl
theorem pack : Statement .pack := rfl
theorem encode (mode : Int) : Statement (.encode mode) := commandWord_and_opMask 11#4 _
theorem decode (mode : Int) : Statement (.decode mode) := commandWord_and_opMask 12#4 _

end Laws.TableRow

end Sys2Proof
end

