-- ==== Sys2Proof/Machine/Assembly.lean ====
section
/-! DEFINITION. The assembly syntax (spec/30_encoding.md R88) and the assembler's expansion of the pseudo-operations
(R89), on lists of characters. -/

namespace Sys2Proof.Machine

/-- The operations without operand and their mnemonics (R88). -/
def plainMnemonics : List (List Char × List Instr) :=
  [(['U', 'N', 'P', 'A', 'C', 'K'], [.unpack]), (['L', 'D', 'C', 'H', 'U', 'N', 'K'], [.ldchunk]),
   (['S', 'Y', 'N', 'W'], [.synw]), (['S', 'T', 'B', 'L', 'K'], [.stblk]), (['L', 'D', 'B', 'L', 'K'], [.ldblk]),
   (['S', 'Y', 'N', 'R'], [.synr]), (['C', 'O', 'R', 'R'], [.corr]), (['S', 'T', 'R', 'I', 'P'], [.strip]),
   (['P', 'A', 'C', 'K'], [.pack]), (['E', 'N', 'C', 'B', 'L', 'K'], Pseudo.encblk.expand),
   (['D', 'E', 'C', 'B', 'L', 'K'], Pseudo.decblk.expand)]

/-- The operations with a mode operand and their mnemonics (R88). -/
def modeMnemonics : List (List Char × (Int → Instr)) :=
  [(['S', 'E', 'T', 'M', 'O', 'D', 'E'], .setmode), (['E', 'N', 'C', 'O', 'D', 'E'], .encode),
   (['D', 'E', 'C', 'O', 'D', 'E'], .decode)]

/-- The words of a line; `cur` is the word read so far. R88 shows one space between mnemonic and operand and does not say
what else may separate them. DESIGN CHOICE (log 20): words are separated by one or more space characters, spaces at
either end have no meaning, and no other character (a tab) separates. -/
def lineWords (cur : List Char) : List Char → List (List Char)
  | [] => if cur = [] then [] else [cur]
  | c :: cs =>
    if c = ' ' then (if cur = [] then lineWords [] cs else cur :: lineWords [] cs) else lineWords (cur ++ [c]) cs

/-- A decimal digit. -/
def digitValue (c : Char) : Option Nat :=
  if 48 ≤ c.toNat ∧ c.toNat ≤ 57 then some (c.toNat - 48) else none

/-- A decimal natural, `acc` being the value of the digits read so far; leading zeros are accepted: DESIGN CHOICE (log
20). -/
def parseDigits (acc : Nat) : List Char → Option Nat
  | [] => some acc
  | c :: cs =>
    match digitValue c with
    | some d => parseDigits (acc * 10 + d) cs
    | none => none

/-- "the operand a decimal integer with optional leading minus sign" (R88). -/
def parseOperand : List Char → Option Int
  | [] => none
  | c :: cs =>
    if c = '-' then (if cs = [] then none else (parseDigits 0 cs).map fun n => -(n : Int))
    else (parseDigits 0 (c :: cs)).map fun n => (n : Int)

/-- The instructions of one line; `none` for a line that is not of the syntax. "A `;` starts a comment" (R88). R88 does
not speak of lines without a mnemonic. DESIGN CHOICE (log 20): a blank line, or one with nothing but a comment, is
accepted and gives no instruction. -/
def parseLine (line : List Char) : Option (List Instr) :=
  match lineWords [] (line.takeWhile (· ≠ ';')) with
  | [] => some []
  | [m] => (plainMnemonics.find? fun e => e.1 = m).map Prod.snd
  | [m, x] =>
    match modeMnemonics.find? fun e => e.1 = m, parseOperand x with
    | some e, some v => some [e.2 v]
    | _, _ => none
  | _ => none

/-- The command words of one line (R88): "the row's match with `imm = operand mod 2^28`". -/
def assembleLine (line : List Char) : Option (List Command) := (parseLine line).map (List.map encode)

end Sys2Proof.Machine
end

