-- ==== Sys2Proof/Tests/Slice0.lean ====
section
/-! SUPPORT. Tests of single operations against the worked values of spec/ (the section is named at each), and a
witness for the hypotheses of every statement. -/

-- The tests are elaborated one after another: many at once need more threads than check.sh's memory limit gives.
set_option Elab.async false

namespace Sys2Proof.Tests

open Sys2Proof.Machine

/-! Helpers. -/

/-- The `n` bits of the binary numeral `v`, first bit first. -/
def bl (n v : Nat) : List Bit := (List.range n).map fun i => v.testBit (n - 1 - i)

/-- `f` of the next state. -/
def after {α : Type} (r : Result) (f : State → α) : Option α :=
  match r with
  | .next t => some (f t)
  | .fault _ => none
  | .refused _ => none

/-- The mode `n`. -/
abbrev md (n : Nat) (h : 1 ≤ n := by decide) : Mode := ⟨n, h⟩

/-- An engine with MODE_MAX = 1023 and CAP_BITS = 24, configured with mode 8, in phase `ph`. -/
def demo (ph : Phase) (blk : List Bit) (synd : Nat) (mem : Memory) : State :=
  { State.powerOn ⟨md 1023, some 24⟩ [] with
    mode := 8, pcount := 4, blen := 12, blk := blk, bstate := ph, synd := synd, mem := mem }

/-- `MSG = <55>`, its payload, and the two blocks `BITS` of its encoding and of a one-bit error at position 6. -/
def demoMem : Memory := ⟨[0x55#8], bl 8 0b01010101, bl 24 0b000110100101000111100101⟩

/-- The encoded block of HAM's Scenario 1 (spec/95_test_vectors.md 1.5). -/
def code : List Bit := bl 12 0b000110100101

/-- `MSG = <55>` alone. -/
def msgMem : Memory := ⟨[0x55#8], [], []⟩

/-! Well-formedness: the check refuses an operand that does not fit. -/

theorem test_ill_formed_setmode :
    (Instr.setmode 134217728).wellFormed = false ∧ (Instr.setmode (-134217729)).wellFormed = false := by decide
theorem test_ill_formed_encode :
    (Instr.encode 134217728).wellFormed = false ∧ (Instr.encode (-134217729)).wellFormed = false := by decide
theorem test_ill_formed_decode :
    (Instr.decode 134217728).wellFormed = false ∧ (Instr.decode (-134217729)).wellFormed = false := by decide

/-! Decoding, the words written out from the encoding of spec/30_encoding.md R80, R81 (op in bits 31:28, imm below). -/

theorem test_decode_setmode : decode 0b00010000000000000000000000001000#32 = .ok (.setmode 8) := by rfl
theorem test_decode_unpack : decode 0b00100000000000000000000000000000#32 = .ok .unpack := by rfl
theorem test_decode_ldchunk : decode 0b00110000000000000000000000000000#32 = .ok .ldchunk := by rfl
theorem test_decode_synw : decode 0b01000000000000000000000000000000#32 = .ok .synw := by rfl
theorem test_decode_stblk : decode 0b01010000000000000000000000000000#32 = .ok .stblk := by rfl
theorem test_decode_ldblk : decode 0b01100000000000000000000000000000#32 = .ok .ldblk := by rfl
theorem test_decode_synr : decode 0b01110000000000000000000000000000#32 = .ok .synr := by rfl
theorem test_decode_corr : decode 0b10000000000000000000000000000000#32 = .ok .corr := by rfl
theorem test_decode_strip : decode 0b10010000000000000000000000000000#32 = .ok .strip := by rfl
theorem test_decode_pack : decode 0b10100000000000000000000000000000#32 = .ok .pack := by rfl
theorem test_decode_encode : decode 0b10111111111111111111111111111111#32 = .ok (.encode (-1)) := by rfl
theorem test_decode_decode : decode 0b11001000000000000000000000000000#32 = .ok (.decode (-134217728)) := by rfl
/-- spec/95_test_vectors.md 2.7. -/
theorem test_decode_illegal :
    decode 0x00000008#32 = .error (.reservedOp 0#4) ∧ decode 0xFFFFFFFF#32 = .error (.reservedOp 15#4) ∧
    decode 0xD0000000#32 = .error (.reservedOp 13#4) ∧ decode 0x4FFFFFFF#32 = .error (.nonZeroImm 4#4 0xFFFFFFF#28) ∧
    decode 0xA8000000#32 = .error (.nonZeroImm 10#4 0x8000000#28) := ⟨rfl, rfl, rfl, rfl, rfl⟩
/-- spec/30_encoding.md R88. -/
theorem test_encode_words :
    encode (.setmode (-1)) = 0x1FFFFFFF#32 ∧ encode (.encode 5) = 0xB0000005#32 ∧
    encode (.decode 134217727) = 0xC7FFFFFF#32 ∧ encode .strip = 0x90000000#32 := by decide
/-- spec/30_encoding.md R88: `DECODE -1 ; again`. -/
theorem test_assemble_operand :
    assembleLine ['D', 'E', 'C', 'O', 'D', 'E', ' ', '-', '1', ' ', ';', 'a'] = some [0xCFFFFFFF#32] := by
  decide +kernel
/-- spec/30_encoding.md R89. -/
theorem test_assemble_pseudo :
    assembleLine ['E', 'N', 'C', 'B', 'L', 'K'] = some [0x30000000#32, 0x40000000#32, 0x50000000#32] := by
  decide +kernel

/-! Functions. -/

/-- spec/40_layout.md R103. -/
theorem test_layout_values :
    [md 1, md 4, md 5, md 11, md 12, md 26, md 27, md 1013, md 1014, md 134217727].map (fun m => (parityCount m, blockLength m)) =
      [(2, 3), (3, 7), (4, 9), (4, 15), (5, 17), (5, 31), (6, 33), (10, 1023), (11, 1025), (28, 134217755)] := by
  decide +kernel
/-- spec/40_layout.md R109. -/
theorem test_dataPos_values :
    [1, 2, 3, 4, 5, 11, 12, 26, 27].map dataPos = [3, 5, 6, 7, 9, 15, 17, 31, 33] := by decide +kernel
/-- spec/95_test_vectors.md 2.2. -/
theorem test_encodeBlock_mode4 : encodeBlock (md 4) (bl 4 0b0110) = bl 7 0b1100110 := by decide +kernel
/-- spec/95_test_vectors.md 1.8 and spec/90_conflicts.md C6. -/
theorem test_checksum :
    checksum 0x0000#16 [0x31, 0x32, 0x33, 0x34, 0x35, 0x36, 0x37, 0x38, 0x39] = 0xBB3D#16 ∧
    checksum 0xFFFF#16 [0x31, 0x32, 0x33, 0x34, 0x35, 0x36, 0x37, 0x38, 0x39] = 0x4B37#16 := by decide +kernel
/-- spec/95_test_vectors.md 2.9: draws 2 and 11. -/
theorem test_injectSingleFault :
    injectSingleFault (md 8) (fun k => if k = 0 then 2 else 11) (bl 24 0b000110011000010111001001) =
      bl 24 0b001110011000010111001000 := by decide +kernel
/-- spec/95_test_vectors.md 2.9: draws 4 and 7 on the one block hit. -/
theorem test_injectBurstFault :
    injectBurstFault (md 8) 0 (fun _ => 4) (fun _ => 7) code = bl 12 0b000100110101 ∧
    injectBurstFault (md 8) 1 (fun _ => 4) (fun _ => 7) code = code ∧
    injectBurstFault (md 8) 0 (fun _ => 4) (fun _ => 4) code = code := by decide +kernel

/-! One operation each; at most two tests an operation. -/

/-- R110, example. -/
theorem test_setmode : after (exec (.setmode 8) State.reset) (fun t => (t.mode, t.pcount, t.blen, t.status)) =
    some (8, 4, 12, .ok) := by decide +kernel
/-- spec/95_test_vectors.md 2.1: `0x17FFFFFF`; program P5, word 17: the block in progress is abandoned. -/
theorem test_setmode_largest :
    after (exec (.setmode 134217727) State.reset) (fun t => (t.pcount, t.blen)) = some (28, 134217755) ∧
    after (exec (.setmode 8) (demo .encoded code 0 demoMem)) (fun t => (t.bstate, t.mem.pay, t.block)) =
      some (.empty, [], code) := by decide +kernel
/-- R170, example (mode 5, `<48 69>`). -/
theorem test_unpack :
    after (exec .unpack { State.powerOn Params.standard [] with
      mode := 5, pcount := 4, blen := 9, mem := ⟨[0x48#8, 0x69#8], [], [true]⟩ }) (fun t => t.mem) =
    some ⟨[0x48#8, 0x69#8], bl 20 0b01001000011010010000, []⟩ := by decide +kernel
/-- spec/95_test_vectors.md 2.8: 4 bytes against `CAP_BITS = 24`. -/
theorem test_unpack_capacity :
    after (exec .unpack (demo .empty [] 0 ⟨[1, 2, 3, 4], [], [true]⟩)) (fun t => (t.status, t.mem.bits)) =
      some (.capacityExceeded, [true]) := by decide +kernel
/-- R171, example. -/
theorem test_ldchunk :
    after (exec .ldchunk (demo .empty [] 0 demoMem)) (fun t => (t.block, t.prd, t.bstate)) =
      some (bl 12 0b000010100101, 8, .reserved) := by decide +kernel
/-- Program P1, word 6. -/
theorem test_ldchunk_underrun :
    after (exec .ldchunk { demo .empty code 0 demoMem with prd := 8 }) (fun t => (t.status, t.block, t.prd)) =
      some (.underrun, code, 8) := by decide +kernel
/-- R132, example. -/
theorem test_synw :
    after (exec .synw (demo .reserved (bl 12 0b000010100101) 0 demoMem)) (fun t => (t.block, t.bstate)) =
      some (code, .encoded) := by decide +kernel
/-- spec/95_test_vectors.md 2.8: a second `SYNW`. -/
theorem test_synw_twice :
    after (exec .synw (demo .encoded code 0 demoMem)) (fun t => (t.status, t.block)) = some (.sequenceError, code) := by
  decide +kernel
/-- R172, example. -/
theorem test_stblk :
    after (exec .stblk (demo .encoded code 0 ⟨[], [], []⟩)) (fun t => (t.mem.bits, t.bstate)) = some (code, .empty) := by
  decide +kernel
/-- spec/95_test_vectors.md 2.8. -/
theorem test_stblk_capacity :
    after (exec .stblk (demo .encoded code 0 demoMem)) (fun t => (t.status, t.bstate, t.mem.bits.length)) =
      some (.capacityExceeded, .encoded, 24) := by decide +kernel
/-- R173, example. -/
theorem test_ldblk :
    after (exec .ldblk (demo .empty [] 0 ⟨[], [], bl 13 0b0001101001011⟩)) (fun t => (t.block, t.brd, t.bstate)) =
      some (code, 12, .received) := by decide +kernel
/-- R173, corner case: one bit left. -/
theorem test_ldblk_underrun :
    after (exec .ldblk { demo .empty code 0 ⟨[], [], bl 13 0b0001101001011⟩ with brd := 12 })
      (fun t => (t.status, t.brd)) = some (.underrun, 12) := by decide +kernel
/-- R133, example. -/
theorem test_synr :
    after (exec .synr (demo .received (bl 12 0b000100110101) 0 demoMem)) (fun t => (t.synd, t.bstate)) =
      some (13, .checked) := by decide +kernel
/-- R133, corner case: the all-one block. -/
theorem test_synr_all_ones :
    after (exec .synr (demo .received (bl 12 0b111111111111) 0 demoMem)) (fun t => t.synd) = some 12 := by
  decide +kernel
/-- R146, example (inside the block), and `SYND = BLEN`. -/
theorem test_corr_inverts :
    after (exec .corr (demo .checked (bl 12 0b000111100101) 6 demoMem)) (fun t => (t.block, t.uerr, t.synd)) =
      some (code, 0, 6) ∧
    after (exec .corr (demo .checked (bl 10 0b0001101001) 12 demoMem)) (fun t => t.block) = some code := by
  decide +kernel
/-- R146, example (outside). -/
theorem test_corr_counts :
    after (exec .corr (demo .checked (bl 12 0b000100110101) 13 demoMem)) (fun t => (t.block, t.uerr, t.status)) =
      some (bl 12 0b000100110101, 1, .ok) := by decide +kernel
/-- R174, example. -/
theorem test_strip :
    after (exec .strip (demo .corrected code 0 ⟨[], bl 8 0b11111111, []⟩)) (fun t => (t.mem.pay, t.bstate)) =
      some (bl 16 0b1111111101010101, .empty) := by decide +kernel
/-- spec/95_test_vectors.md 2.8: `STRIP` in `CHECKED`. -/
theorem test_strip_phase :
    after (exec .strip (demo .checked code 0 demoMem)) (fun t => t.status) = some .sequenceError := by decide +kernel
/-- R175, example. -/
theorem test_pack :
    after (exec .pack (demo .empty [] 0 ⟨[], bl 20 0b01001000011010010000, []⟩)) (fun t => t.mem.msg) =
      some [0x48#8, 0x69#8] := by decide +kernel
/-- spec/95_test_vectors.md 2.8: `PACK` at reset. -/
theorem test_pack_reset : after (exec .pack State.reset) (fun t => t.status) = some .sequenceError := by
  decide +kernel
/-- Program P4, first part. -/
theorem test_encode :
    after (exec (.encode 5) { State.reset with mem := ⟨[0x48#8, 0x69#8], [], []⟩ })
      (fun t => (t.mem.bits, t.prd, t.block)) =
    some (bl 36 0b000110011100000011101101000111000000, 20, bl 9 0b111000000) := by decide +kernel
/-- spec/95_test_vectors.md 2.8: `InvalidMode` before `CapacityExceeded`. -/
theorem test_encode_faults :
    after (exec (.encode 0) { State.reset with mem := ⟨[], [], []⟩ }) (fun t => t.status) = some .invalidMode ∧
    after (exec (.encode 1024) (demo .empty [] 0 ⟨[1, 2, 3, 4], [], []⟩)) (fun t => t.status) =
      some .modeUnsupported ∧
    after (exec (.encode 8) (demo .empty [] 0 ⟨[1, 2, 3], [], []⟩)) (fun t => t.status) = some .capacityExceeded := by
  decide +kernel
/-- Program P4, second part. -/
theorem test_decode_stream :
    after (exec (.decode 5) { State.reset with
      mem := ⟨[], [], bl 38 0b00011001110100001110110100111100000011⟩ })
      (fun t => (t.mem.msg, t.uerr, t.synd, t.brd, t.block)) =
    some ([0x48#8, 0x69#8], 0, 0, 36, bl 9 0b111000000) := by decide +kernel
/-- Program P7. -/
theorem test_decode_perfect :
    after (exec (.decode 4) { State.reset with mem := ⟨[1], [], bl 7 0b0101100⟩ })
      (fun t => (t.mem.msg, t.mem.pay, t.uerr, t.synd, t.block)) =
    some ([], bl 4 0b1100, 0, 3, bl 7 0b0111100) := by decide +kernel

/-! The step. -/

/-- spec/95_test_vectors.md 2.8: an illegal word has priority over the phase. -/
theorem test_step_illegal :
    after (step ((demo .reserved code 0 demoMem).withFetchWord 32 0x40000001)) (fun t => (t.status, t.bstate)) =
      some (.illegalCommand, .reserved) := by decide +kernel
theorem test_step_runs_word :
    after (step (State.reset.withFetchWord 32 0x10000008)) (fun t => (t.mode, t.host)) = some (8, []) := by
  decide +kernel
/-- A host write past `CAP_BITS` (log 7). -/
theorem test_step_oversized_write :
    after (step { demo .empty [] 0 demoMem with host := [.writeMsg [1, 2, 3, 4]] }) (fun t => t.mem.msg) = none ∧
    after (step { demo .empty [] 0 demoMem with host := [.writeMsg [1, 2, 3]] }) (fun t => t.mem.msg) =
      some [1, 2, 3] := by decide +kernel
/-- The host's read of `BLK` is limited to the block (spec/10_state.md R33). -/
theorem test_hostReadBlk :
    (demo .encoded code 0 demoMem).hostReadBlk 12 = some true ∧
    (demo .encoded code 0 demoMem).hostReadBlk 13 = none ∧ (demo .encoded code 0 demoMem).hostReadBlk 0 = none := by
  decide +kernel

/-! Witnesses: for each statement a concrete instance of its hypotheses, at the edges of their ranges. -/

theorem fits_demo (ph : Phase) (blk : List Bit) (x n : Nat) (mem : Memory) (h : n ≤ 24) :
    fitsCap (demo ph blk x mem).params n := by
  intro c hc
  cases hc
  exact h

theorem not_fits_demo (ph : Phase) (blk : List Bit) (x n : Nat) (mem : Memory) (h : 24 < n) :
    ¬ fitsCap (demo ph blk x mem).params n := fun hf => absurd (hf 24 rfl) (by omega)

/-- The invariant as one decidable condition. -/
theorem inv_of {s : State}
    (h : s.params.wf = true ∧
      ((s.mode = 0 ∧ s.pcount = 0 ∧ s.blen = 0 ∧ s.bstate = .empty ∧ s.uerr = 0) ∨
        (∃ h : 1 ≤ s.mode, s.mode ≤ s.params.modeMax.val ∧ s.pcount = parityCount ⟨s.mode, h⟩ ∧
          s.blen = blockLength ⟨s.mode, h⟩)) ∧
      s.synd < 2 ^ s.pcount ∧ blkWf s.blk = true ∧ s.blk.length ≤ blMax s.params.modeMax ∧
      s.mode ∣ s.mem.pay.length ∧ (s.mode ∣ s.prd ∧ s.prd ≤ s.mem.pay.length) ∧ s.blen ∣ s.brd ∧
      (s.bstate = .reserved → ∀ k < s.pcount, bitAt s.blk (2 ^ k) = false) ∧
      (s.bstate = .encoded → syndrome s.pcount s.block = 0) ∧
      (s.bstate = .checked → s.synd = syndrome s.pcount s.block) ∧
      (s.bstate = .corrected → s.synd ≤ s.blen → syndrome s.pcount s.block = 0) ∧
      s.mem.wf s.params = true) : s.Inv := by
  obtain ⟨h1, h2, h3, h4, h5, h6, h7, h8, h9, h10, h11, h12, h13⟩ := h
  exact ⟨h1, h2, h3, h4, h5, h6, h7, h8, h9, h10, h11, h12, h13⟩

theorem inv_empty : (demo .empty code 0 demoMem).Inv :=
  inv_of (by decide +kernel)

theorem inv_empty_half : (demo .empty code 0 ⟨[0x55#8], bl 8 0b01010101, code⟩).Inv :=
  inv_of (by decide +kernel)

theorem inv_reserved : (demo .reserved (bl 12 0b000010100101) 0 demoMem).Inv :=
  inv_of (by decide +kernel)

theorem inv_received_first : (demo .received (invertAt code 1) 0 demoMem).Inv :=
  inv_of (by decide +kernel)

theorem inv_received_last : (demo .received (bl 10 0b0001101001) 0 demoMem).Inv :=
  inv_of (by decide +kernel)

theorem inv_checked (blk : List Bit) (x : Nat)
    (h : (x = 0 ∧ blk = code) ∨ (x = 12 ∧ blk = bl 10 0b0001101001) ∨ (x = 13 ∧ blk = bl 12 0b000100110101)) :
    (demo .checked blk x demoMem).Inv := by
  rcases h with ⟨rfl, rfl⟩ | ⟨rfl, rfl⟩ | ⟨rfl, rfl⟩ <;>
  exact inv_of (by decide +kernel)

theorem inv_corrected : (demo .corrected code 6 ⟨[], bl 16 0b1111111101010101, []⟩).Inv :=
  inv_of (by decide +kernel)

theorem witness_DecodeInvertsEncode :
    (Instr.setmode (-134217728)).wellFormed = true ∧ (Instr.decode 134217727).wellFormed = true := by decide
theorem witness_EncodeInvertsDecode : decode 0x1FFFFFFF#32 = .ok (.setmode (-1)) := by rfl
theorem witness_IllegalWordsExactly :
    decode 0x20000001#32 = .error (.nonZeroImm 2#4 1#28) ∧
    ({ State.reset with host := [.issue 0x20000001#32] } : State).host = .issue 0x20000001#32 :: [] := ⟨rfl, rfl⟩
/-- For `ParityCountIsRealFormula`, `LayoutFacts`, `DataPositionsEnumerate` (clauses 2 and 4) and `EncodedStreamLayout`:
the smallest mode, two indexes, a chunk, a data bit and an order in range. -/
theorem witness_layout :
    (md 1).val = 1 ∧ (1 : Nat) < 2 ∧ 0 < ceildiv (8 * [0x55#8].length) 1 ∧ 1 ≤ blockLength (md 1) ∧ 0 < parityCount (md 1) := by
  decide +kernel
theorem witness_DataPositionsEnumerate : 1 ≤ 3 ∧ ¬ ∃ k, 3 = 2 ^ k := by
  refine ⟨by decide, fun ⟨k, hk⟩ => ?_⟩
  match k, hk with
  | 0, hk => simp at hk
  | k + 1, hk => rw [pow_succ] at hk; omega
theorem witness_BytesAndBitsRegroup :
    0 < [0x55#8].length ∧ 7 < 8 ∧ 0 < (bl 9 0b010101011).length / 8 := by decide
theorem witness_XorTreeShapeImmaterial :
    2 ≤ 3 ∧ (XorTree.gate (.leaf 3) (.leaf 1)).leaves.Perm (cover 0 3) := ⟨by decide, by decide⟩
theorem witness_ParityOrdersIndependent :
    [1, 0].Perm (List.range 2) ∧ 1 ≤ 3 ∧ 3 ≤ (bl 3 0b001).length ∧ (∀ k < 2, 3 ≠ 2 ^ k) ∧ 1 < 2 ∧ 2 = 2 ^ 1 :=
  ⟨by decide, by decide, by decide, by decide, by decide, by decide⟩
theorem witness_WriteParityTwiceRestores :
    (∀ k < 4, bitAt (bl 12 0b000010100101) (2 ^ k) = false) ∧ 3 < 4 := by decide +kernel
theorem witness_SyndromeIsXorOfPositions : (bl 15 0b111111111111111).length < 2 ^ 4 ∧ 3 < 4 := by decide +kernel
theorem witness_ErrorsShiftSyndrome :
    ((bl 12 0b000010100101).length = blockLength (md 8) ∧
      ∀ k < parityCount (md 8), bitAt (bl 12 0b000010100101) (2 ^ k) = false) ∧
    (code.length < 2 ^ 4 ∧ ∀ q ∈ [1, 12], 1 ≤ q ∧ q ≤ code.length) ∧ (1 ≤ 5 ∧ 1 ≤ 8 ∧ 5 ≠ 8) := by decide +kernel
theorem witness_SingleErrorsCorrected_first :
    (demo .received (invertAt code 1) 0 demoMem).Inv ∧ code.length = 12 ∧ syndrome 4 code = 0 ∧ 1 ≤ 12 ∧
    (demo .received (invertAt code 1) 0 demoMem).block = invertAt code 1 :=
  ⟨inv_received_first, by decide +kernel, by decide +kernel, by decide, by decide +kernel⟩
theorem witness_SingleErrorsCorrected_last :
    (demo .received (bl 10 0b0001101001) 0 demoMem).Inv ∧ code.length = 12 ∧ syndrome 4 code = 0 ∧ 12 ≤ 12 ∧
    (demo .received (bl 10 0b0001101001) 0 demoMem).block = invertAt code 12 :=
  ⟨inv_received_last, by decide +kernel, by decide +kernel, by decide, by decide +kernel⟩
theorem witness_MiscorrectionKept :
    code.length = blockLength (md 8) ∧ syndrome (parityCount (md 8)) code = 0 ∧
    ([1, 2, 3].Nodup ∧ 2 ≤ [1, 2, 3].length ∧ (∀ q ∈ [1, 2, 3], 1 ≤ q ∧ q ≤ blockLength (md 8)) ∧ xorOf [1, 2, 3] = 0) ∧
    ([4, 8].Nodup ∧ (∀ q ∈ [4, 8], 1 ≤ q ∧ q ≤ blockLength (md 8)) ∧ 1 ≤ xorOf [4, 8] ∧ xorOf [4, 8] = blockLength (md 8) ∧
      [4, 8].length = 2) := by decide +kernel
theorem witness_DetectionOnlyShortened :
    (code.length = blockLength (md 8) ∧ syndrome (parityCount (md 8)) code = 0) ∧
    ((bl 7 0b1001100).length = blockLength (md 4) ∧ syndrome (parityCount (md 4)) (bl 7 0b1001100) = 0) := by
  decide +kernel
theorem witness_PerfectModesNeverCount :
    (md 4).val ≤ (demo .empty code 0 demoMem).params.modeMax.val ∧ blockLength (md 4) + 1 = 2 ^ parityCount (md 4) := by
  decide +kernel
theorem witness_StripInvertsReserve :
    (bl 8 0b01010101).length = (md 8).val ∧ code.length = blockLength (md 8) := by decide +kernel
theorem witness_DecodeDropsTail :
    (bl 11 0b11111111111).length < blockLength (md 8) ∧ blockLength (md 8) ∣ (bl 24 0).length := by decide +kernel
/-- For `RoundTripThroughEngine`, `EncodeEncodesStream`, `EncodeEqualsMicroCall`: two bytes at mode 8 fill `CAP_BITS`
exactly. -/
theorem witness_RoundTripThroughEngine :
    (md 8).val ≤ (demo .empty code 0 ⟨[0x48#8, 0x69#8], [], []⟩).params.modeMax.val ∧
    ceildiv (8 * [0x48#8, 0x69#8].length) 8 * blockLength (md 8) = 24 ∧
    fitsCap (demo .empty code 0 ⟨[0x48#8, 0x69#8], [], []⟩).params 24 ∧ 8 ∣ 8 * [0x48#8, 0x69#8].length :=
  ⟨by decide, by decide +kernel, fits_demo _ _ _ _ _ (by decide), by decide⟩
theorem witness_SingleFaultPerBlockRecovered :
    (md 8).val ≤ (demo .empty code 0 ⟨[0x48#8], [], []⟩).params.modeMax.val ∧
    fitsCap (demo .empty code 0 ⟨[0x48#8], [], []⟩).params (ceildiv (8 * [0x48#8].length) 8 * blockLength (md 8)) ∧
    ∀ k : Nat, (fun _ => 11) k < blockLength (md 8) :=
  ⟨by decide, fits_demo _ _ _ _ _ (by decide +kernel), fun _ => (by decide +kernel : 11 < blockLength (md 8))⟩
theorem witness_SetmodeConfigures :
    (0 : Int) < 1 ∧ (1 : Int) ≤ 1024 ∧ ((demo .empty code 0 demoMem).params.modeMax.val : Int) < 1024 ∧
    (md 1023).val ≤ (demo .empty code 0 demoMem).params.modeMax.val := by decide +kernel
theorem witness_UnpackBuildsPayload :
    (State.reset.mode = 0) ∧ (demo .reserved code 0 demoMem).bstate ≠ .empty ∧
    ¬ fitsCap (demo .empty [] 0 ⟨[1, 2, 3, 4], [], []⟩).params (ceildiv (8 * 4) 8 * 8) ∧
    fitsCap (demo .empty [] 0 ⟨[1, 2, 3], [], []⟩).params (ceildiv (8 * 3) 8 * 8) ∧
    (demo .empty [] 0 ⟨[1, 2, 3], [], []⟩).mode ≠ 0 ∧ (demo .empty [] 0 ⟨[1, 2, 3], [], []⟩).bstate = .empty :=
  ⟨rfl, by decide, not_fits_demo _ _ _ _ _ (by decide +kernel), fits_demo _ _ _ _ _ (by decide +kernel), by decide,
   rfl⟩
/-- For `LdchunkReservesChunk`: the last chunk, and none left. -/
theorem witness_LdchunkReservesChunk :
    (demo .empty code 0 demoMem).Inv ∧ (demo .empty code 0 demoMem).mode ≠ 0 ∧
    (demo .empty code 0 demoMem).prd + 8 = demoMem.pay.length ∧
    demoMem.pay.length < ({ demo .empty code 0 demoMem with prd := 8 } : State).prd + 8 ∧
    (demo .checked code 0 demoMem).bstate ≠ .empty :=
  ⟨inv_empty, by decide, by decide +kernel, by decide +kernel, by decide⟩
theorem witness_SynwWritesParity :
    (demo .reserved (bl 12 0b000010100101) 0 demoMem).Inv ∧
    (demo .reserved (bl 12 0b000010100101) 0 demoMem).bstate = .reserved ∧
    (demo .empty code 0 demoMem).bstate ≠ .reserved := ⟨inv_reserved, rfl, by decide⟩
theorem witness_StblkAppendsBlock :
    (demo .encoded code 0 ⟨[], [], code⟩).mode ≠ 0 ∧ (demo .encoded code 0 ⟨[], [], code⟩).bstate = .encoded ∧
    fitsCap (demo .encoded code 0 ⟨[], [], code⟩).params (code.length + 12) ∧
    ¬ fitsCap (demo .encoded code 0 ⟨[], [], bl 13 0⟩).params ((bl 13 0).length + 12) ∧
    (demo .empty code 0 demoMem).bstate ≠ .encoded :=
  ⟨by decide, rfl, fits_demo _ _ _ _ _ (by decide +kernel), not_fits_demo _ _ _ _ _ (by decide +kernel), by decide⟩
/-- For `LdblkLoadsBlock`: exactly one block left, and one bit fewer. -/
theorem witness_LdblkLoadsBlock :
    ({ demo .empty code 0 demoMem with brd := 12 } : State).brd + 12 = demoMem.bits.length ∧
    demoMem.bits.length < ({ demo .empty code 0 demoMem with brd := 13 } : State).brd + 12 ∧
    (demo .empty code 0 demoMem).mode ≠ 0 ∧ (demo .received code 0 demoMem).bstate ≠ .empty := by decide +kernel
theorem witness_SynrComputesSyndrome :
    (demo .received (invertAt code 1) 0 demoMem).Inv ∧
    (demo .received (invertAt code 1) 0 demoMem).bstate = .received ∧
    (demo .checked code 0 demoMem).bstate ≠ .received := ⟨inv_received_first, rfl, by decide⟩
/-- For `CorrAppliesPolicy`: `SYND` 0, `BLEN` and `BLEN + 1`. -/
theorem witness_CorrAppliesPolicy :
    (demo .checked code 0 demoMem).Inv ∧ (demo .checked (bl 10 0b0001101001) 12 demoMem).Inv ∧
    (demo .checked (bl 12 0b000100110101) 13 demoMem).Inv ∧ (demo .checked code 0 demoMem).mode ≠ 0 ∧
    (demo .corrected code 0 demoMem).bstate ≠ .checked :=
  ⟨inv_checked _ _ (.inl ⟨rfl, rfl⟩), inv_checked _ _ (.inr (.inl ⟨rfl, rfl⟩)),
   inv_checked _ _ (.inr (.inr ⟨rfl, rfl⟩)), by decide, by decide⟩
theorem witness_StripAppendsData :
    (demo .corrected code 6 ⟨[], bl 16 0b1111111101010101, []⟩).Inv ∧
    fitsCap (demo .corrected code 6 ⟨[], bl 16 0b1111111101010101, []⟩).params
      ((bl 16 0b1111111101010101).length + 8) ∧
    ¬ fitsCap (demo .corrected code 6 ⟨[], bl 17 0, []⟩).params ((bl 17 0).length + 8) ∧
    (demo .corrected code 6 ⟨[], bl 17 0, []⟩).mode ≠ 0 ∧ (demo .checked code 0 demoMem).bstate ≠ .corrected :=
  ⟨inv_corrected, fits_demo _ _ _ _ _ (by decide +kernel), not_fits_demo _ _ _ _ _ (by decide +kernel), by decide,
   by decide⟩
theorem witness_PackDeliversBytes :
    (demo .empty code 0 demoMem).mode ≠ 0 ∧ (demo .empty code 0 demoMem).bstate = .empty ∧
    (demo .received code 0 demoMem).bstate ≠ .empty := by decide
/-- For `EncodeEncodesStream`: the faults' clauses, an empty message and one that is not. -/
theorem witness_EncodeEncodesStream :
    (0 : Int) < 1 ∧ (1 : Int) ≤ 1024 ∧ ((demo .empty code 0 demoMem).params.modeMax.val : Int) < 1024 ∧
    ¬ fitsCap (demo .empty code 0 ⟨[1, 2, 3], [], []⟩).params (ceildiv (8 * 3) 8 * blockLength (md 8)) ∧
    (demo .empty code 0 ⟨[], [], []⟩).mem.msg = [] ∧ (demo .empty code 0 demoMem).mem.msg ≠ [] :=
  ⟨by decide, by decide, by decide, not_fits_demo _ _ _ _ _ (by decide +kernel), rfl, by decide⟩
/-- For `DecodeDecodesStream`: fewer bits than a block, and one block exactly. -/
theorem witness_DecodeDecodesStream :
    (-134217728 : Int) < 1 ∧ ((demo .empty code 0 demoMem).params.modeMax.val : Int) < 1024 ∧
    8 ≤ (demo .empty code 0 demoMem).params.modeMax.val ∧ (bl 11 0).length < blockLength (md 8) ∧
    blockLength (md 8) ≤ code.length := by decide +kernel
theorem witness_EncblkEncodesChunk :
    (demo .empty code 0 ⟨[0x55#8], bl 8 0b01010101, code⟩).Inv ∧
    (demo .empty code 0 ⟨[0x55#8], bl 8 0b01010101, code⟩).prd + 8 ≤ (bl 8 0b01010101).length ∧
    fitsCap (demo .empty code 0 ⟨[0x55#8], bl 8 0b01010101, code⟩).params (code.length + 12) :=
  ⟨inv_empty_half, by decide +kernel, fits_demo _ _ _ _ _ (by decide +kernel)⟩
theorem witness_DecblkDecodesBlock :
    (demo .empty code 0 ⟨[0x55#8], bl 8 0b01010101, code⟩).Inv ∧
    (demo .empty code 0 ⟨[0x55#8], bl 8 0b01010101, code⟩).brd + 12 ≤ code.length ∧
    fitsCap (demo .empty code 0 ⟨[0x55#8], bl 8 0b01010101, code⟩).params ((bl 8 0b01010101).length + 8) :=
  ⟨inv_empty_half, by decide +kernel, fits_demo _ _ _ _ _ (by decide +kernel)⟩
theorem witness_DecodeEqualsMicroCall :
    (md 8).val ≤ (demo .empty code 0 demoMem).params.modeMax.val ∧
    fitsCap (demo .empty code 0 demoMem).params (demoMem.bits.length / blockLength (md 8) * 8) :=
  ⟨by decide, fits_demo _ _ _ _ _ (by decide +kernel)⟩
/-- For `FirstFaultOnlyStatus`, `PhaseInterlock`, `UnderrunExactly`, `CapacityExactly`, `OnlyListedWriters`: an
operation that completes, and one of each fault, each answering a next state. -/
theorem witness_exec_answers :
    after (exec .pack (demo .empty code 0 demoMem)) (fun t => t.status) = some .ok ∧
    after (exec (.setmode 0) State.reset) (fun t => t.status) = some .invalidMode ∧
    after (exec (.decode 1024) (demo .empty code 0 demoMem)) (fun t => t.status) = some .modeUnsupported ∧
    after (exec .corr State.reset) (fun t => t.status) = some .sequenceError ∧
    after (exec .ldblk { demo .empty code 0 demoMem with brd := 13 }) (fun t => t.status) = some .underrun ∧
    after (exec .stblk (demo .encoded code 0 demoMem)) (fun t => t.status) = some .capacityExceeded := by
  decide +kernel
/-- For `OnlyListedWriters`: operations that change `BLK`, `SYND`, `BSTATE`, `UERR`, `MSG`, `PAY` and `BITS`. -/
theorem witness_OnlyListedWriters :
    after (exec .corr (demo .checked (bl 12 0b000111100101) 6 demoMem))
      (fun t => decide (t.blk = bl 12 0b000111100101)) = some false ∧
    after (exec .synr (demo .received (invertAt code 1) 0 demoMem)) (fun t => decide (t.synd = 0)) = some false ∧
    after (exec .corr (demo .checked (bl 12 0b000100110101) 13 demoMem)) (fun t => decide (t.uerr = 0)) = some false ∧
    after (exec .unpack (demo .empty code 0 demoMem)) (fun t => decide (t.mem.bits = demoMem.bits)) = some false ∧
    after (exec .synr (demo .received code 0 demoMem)) (fun t => decide (t.bstate = .received)) = some false ∧
    after (exec (.setmode 1) (demo .empty code 0 demoMem)) (fun t => decide (t.mem.pay = demoMem.pay)) =
      some false := by decide +kernel
/-- For `CallsForgetOldState`: two different states with one message, one stream and one set of parameters. -/
theorem witness_CallsForgetOldState :
    (demo .empty code 0 demoMem).params = (demo .checked [] 5 demoMem).params ∧
    (demo .empty code 0 demoMem).mem.msg = (demo .checked [] 5 demoMem).mem.msg ∧
    (demo .empty code 0 demoMem).mem.bits = (demo .checked [] 5 demoMem).mem.bits ∧
    after (exec (.encode 8) (demo .empty code 0 demoMem)) (fun t => t.status) = some .ok ∧
    after (exec (.encode 8) (demo .checked [] 5 demoMem)) (fun t => t.status) = some .ok ∧
    after (exec (.decode 8) (demo .empty code 0 demoMem)) (fun t => t.status) = some .ok ∧
    after (exec (.decode 8) (demo .checked [] 5 demoMem)) (fun t => t.status) = some .ok := by decide +kernel
theorem witness_StepRunsDecodedInstruction :
    ({ State.reset with host := [.issue 0x20000000#32, .reset] } : State).host = .issue 0x20000000#32 :: [.reset] ∧
    decode 0x20000000#32 = .ok .unpack ∧ decodeTableWord 32 0xC0000008 = some (.decode 8) := ⟨rfl, rfl, rfl⟩
theorem witness_HostMovesBetweenOperations :
    State.reset.host = [] ∧
    ({ demo .empty code 0 demoMem with host := [.writeMsg [1, 2, 3]] } : State).host = [.writeMsg [1, 2, 3]] ∧
    fitsCap (demo .empty code 0 demoMem).params (8 * [1, 2, 3].length) ∧
    ({ demo .empty code 0 demoMem with host := [.writeBits (bl 24 0), .reset] } : State).host =
      .writeBits (bl 24 0) :: [.reset] ∧
    fitsCap (demo .empty code 0 demoMem).params (bl 24 0).length ∧
    ({ demo .empty code 0 demoMem with host := [.reset] } : State).host = [.reset] :=
  ⟨rfl, rfl, fits_demo _ _ _ _ _ (by decide), rfl, fits_demo _ _ _ _ _ (by decide +kernel), rfl⟩
theorem witness_StepKeepsInvariant :
    (demo .empty code 0 demoMem).Inv ∧ step (demo .empty code 0 demoMem) = .next (demo .empty code 0 demoMem) :=
  ⟨inv_empty, rfl⟩
theorem witness_ResetHasInvariant : Params.wf ⟨md 1, some 0⟩ = true ∧ Params.wf ⟨md 134217727, none⟩ = true := by decide
theorem witness_ResetRefusesMicroOperations : requiredPhase .strip = some .corrected := rfl
/-- For `HamCallsByHostMoves`: an encode call and a decode call that fill `CAP_BITS` exactly, and a mode below 1. -/
theorem witness_HamCallsByHostMoves :
    (md 8).val ≤ (demo .empty code 0 demoMem).params.modeMax.val ∧ (demo .empty code 0 demoMem).params.wf = true ∧
    ({ demo .empty code 0 demoMem with
        host := [.writeMsg [0x48#8, 0x69#8], .issue (encode (.encode ((md 8).val : Int))), .reset] } : State).host =
      .writeMsg [0x48#8, 0x69#8] :: .issue (encode (.encode ((md 8).val : Int))) :: [.reset] ∧
    fitsCap (demo .empty code 0 demoMem).params (8 * [0x48#8, 0x69#8].length) ∧
    fitsCap (demo .empty code 0 demoMem).params (ceildiv (8 * [0x48#8, 0x69#8].length) 8 * blockLength (md 8)) ∧
    ({ demo .empty code 0 demoMem with
        host := [.writeBits (bl 24 0), .issue (encode (.decode ((md 8).val : Int)))] } : State).host =
      .writeBits (bl 24 0) :: .issue (encode (.decode ((md 8).val : Int))) :: [] ∧
    fitsCap (demo .empty code 0 demoMem).params (bl 24 0).length ∧
    modeFits (-134217728) = true ∧ (-134217728 : Int) < 1 ∧
    ({ State.reset with host := [.issue (encode (.encode (-134217728)))] } : State).host =
      .issue (encode (.encode (-134217728))) :: [] :=
  ⟨by decide, by decide, rfl, fits_demo _ _ _ _ _ (by decide), fits_demo _ _ _ _ _ (by decide +kernel), rfl,
   fits_demo _ _ _ _ _ (by decide +kernel), by decide, by decide, rfl⟩

end Sys2Proof.Tests
end

section
/-! Regrouping bytes and bits (spec/20_memory.md R56, R57): one lemma for each clause of `BytesAndBitsRegroup`. A bit
sequence is taken apart eight bits at a time, as `bytesOfBits` does it. -/

namespace Sys2Proof.Proofs
open Sys2Proof.Machine

/-! From bytes to bits. -/

theorem length_bitsOfBytes (m : List Byte) : (bitsOfBytes m).length = 8 * m.length := by
  induction m with
  | nil => rfl
  | cons x xs ih =>
    simp only [bitsOfBytes, List.length_append, length_bitsOfByte, ih, List.length_cons]
    omega

theorem getElem?_bitsOfByte (x : Byte) {j : Nat} (hj : j < 8) : (bitsOfByte x)[j]? = some (x.getLsbD (7 - j)) := by
  interval_cases j <;> rfl

theorem getElem?_bitsOfBytes (m : List Byte) (i : Nat) {j : Nat} (hj : j < 8) :
    (bitsOfBytes m)[8 * i + j]? = (m[i]?).map fun x => x.getLsbD (7 - j) := by
  induction m generalizing i with
  | nil => rfl
  | cons x xs ih =>
    cases i with
    | zero =>
      rw [Nat.mul_zero, Nat.zero_add, bitsOfBytes, List.getElem?_append_left (by simpa using hj), getElem?_bitsOfByte x hj]
      rfl
    | succ i =>
      have hskip : 8 * (i + 1) + j - 8 = 8 * i + j := by omega
      rw [bitsOfBytes, List.getElem?_append_right (by simp; omega), length_bitsOfByte, hskip, ih, List.getElem?_cons_succ]

/-! From bits to bytes. -/

/-- Induction along `bytesOfBits`: a sequence too short for a byte, and eight bits in front of a sequence. -/
theorem octet_induction {P : List Bit → Prop} (short : ∀ b, b.length < 8 → P b)
    (octet : ∀ b0 b1 b2 b3 b4 b5 b6 b7 rest, P rest → P (b0 :: b1 :: b2 :: b3 :: b4 :: b5 :: b6 :: b7 :: rest))
    (b : List Bit) : P b := by
  induction b using bytesOfBits.induct with
  | case1 b0 b1 b2 b3 b4 b5 b6 b7 rest ih => exact octet b0 b1 b2 b3 b4 b5 b6 b7 rest ih
  | case2 b hb =>
    refine short b (Nat.lt_of_not_le fun hlen => ?_)
    match b, hlen with
    | b0 :: b1 :: b2 :: b3 :: b4 :: b5 :: b6 :: b7 :: rest, _ => exact hb b0 b1 b2 b3 b4 b5 b6 b7 rest rfl

theorem bytesOfBits_of_length_lt {b : List Bit} (h : b.length < 8) : bytesOfBits b = [] := by
  unfold bytesOfBits
  split
  · exact absurd h (by simp)
  · rfl

/-- Eight bits in front of a sequence add one byte to its `len(b) div 8`. -/
theorem length_div_eight_octet (b0 b1 b2 b3 b4 b5 b6 b7 : Bit) (rest : List Bit) :
    (b0 :: b1 :: b2 :: b3 :: b4 :: b5 :: b6 :: b7 :: rest).length / 8 = rest.length / 8 + 1 :=
  Nat.add_div_right rest.length (Nat.succ_pos 7)

theorem length_bytesOfBits (b : List Bit) : (bytesOfBits b).length = b.length / 8 := by
  induction b using octet_induction with
  | short b h => simp [bytesOfBits_of_length_lt h, Nat.div_eq_of_lt h]
  | octet b0 b1 b2 b3 b4 b5 b6 b7 rest ih => rw [bytesOfBits, List.length_cons, ih, length_div_eight_octet]

/-- The sum of eight bits is below 256, so `byteOfBits` loses nothing of it. -/
theorem toNat_byteOfBits (b0 b1 b2 b3 b4 b5 b6 b7 : Bit) :
    (byteOfBits b0 b1 b2 b3 b4 b5 b6 b7).toNat =
      ∑ j ∈ Finset.range 8, ([b0, b1, b2, b3, b4, b5, b6, b7].getD j false).toNat * 2 ^ (7 - j) := by
  have h0 := b0.toNat_le
  have h1 := b1.toNat_le
  have h2 := b2.toNat_le
  have h3 := b3.toNat_le
  have h4 := b4.toNat_le
  have h5 := b5.toNat_le
  have h6 := b6.toNat_le
  have h7 := b7.toNat_le
  rw [byteOfBits, BitVec.toNat_ofNat, Nat.mod_eq_of_lt (by omega)]
  simp [Finset.sum_range_succ]

theorem toNat_getD_bytesOfBits (b : List Bit) {i : Nat} (hi : i < b.length / 8) :
    ((bytesOfBits b).getD i 0#8).toNat = ∑ j ∈ Finset.range 8, (b.getD (8 * i + j) false).toNat * 2 ^ (7 - j) := by
  induction b using octet_induction generalizing i with
  | short b h => omega
  | octet b0 b1 b2 b3 b4 b5 b6 b7 rest ih =>
    cases i with
    | zero => simpa [bytesOfBits, Finset.sum_range_succ] using toNat_byteOfBits b0 b1 b2 b3 b4 b5 b6 b7
    | succ i =>
      rw [length_div_eight_octet] at hi
      have hskip : ∀ j, 8 * (i + 1) + j = 8 * i + j + 8 := fun j => by omega
      simpa [bytesOfBits, hskip] using ih (Nat.lt_of_succ_lt_succ hi)

theorem bytesOfBits_take (b : List Bit) : bytesOfBits (b.take (8 * (b.length / 8))) = bytesOfBits b := by
  induction b using octet_induction with
  | short b h => simp [Nat.div_eq_of_lt h, bytesOfBits_of_length_lt h, bytesOfBits]
  | octet b0 b1 b2 b3 b4 b5 b6 b7 rest ih =>
    rw [length_div_eight_octet, Nat.mul_add]
    simp [bytesOfBits, ih]

theorem bytesOfBits_bitsOfByte_append (x : Byte) (rest : List Bit) :
    bytesOfBits (bitsOfByte x ++ rest) = x :: bytesOfBits rest :=
  congrArg (· :: bytesOfBits rest) (byteOfBits_bitsOfByte x)

theorem bytesOfBits_bitsOfBytes (m : List Byte) : bytesOfBits (bitsOfBytes m) = m := by
  induction m with
  | nil => rfl
  | cons x xs ih => rw [bitsOfBytes, bytesOfBits_bitsOfByte_append, ih]

/-- Settles O8: bytes to bits by induction on the bytes, bits to bytes by induction eight bits at a time. -/
theorem bytesAndBitsRegroup : Obligations.BytesAndBitsRegroup :=
  ⟨fun m => ⟨length_bitsOfBytes m, fun i _ _ hj => getElem?_bitsOfBytes m i hj⟩,
   fun b => ⟨length_bytesOfBits b, fun _ hi => toNat_getD_bytesOfBits b hi, (bytesOfBits_take b).symm⟩,
   bytesOfBits_bitsOfBytes⟩

end Sys2Proof.Proofs
end

section
/-! The illegal words (spec/30_encoding.md R85): the two reasons with their exact conditions on the fields of the word,
and the step on such a word. -/

namespace Sys2Proof.Proofs
open Sys2Proof.Machine

/-! The fields of a word as arithmetic on it (R80). -/

theorem toNat_opField (w : Command) : (opField w).toNat = w.toNat / 2 ^ 28 := by
  have hw := w.isLt
  rw [opField, BitVec.extractLsb'_toNat, Nat.shiftRight_eq_div_pow]
  omega

theorem toNat_immField (w : Command) : (immField w).toNat = w.toNat % 2 ^ 28 := by
  rw [immField, BitVec.extractLsb'_toNat, Nat.shiftRight_zero]

/-! When the decoder refuses. -/

theorem noOperand_eq_error_iff (w : Command) (i : Instr) (e : Illegal) :
    noOperand w i = .error e ↔ immField w ≠ 0#28 ∧ e = .nonZeroImm (opField w) (immField w) := by
  by_cases himm : immField w = 0#28
  · simp [noOperand, himm]
  · simp [noOperand, himm, eq_comm]

/-- R85 with the reason: (a) a reserved `op`, (b) a non-zero `imm` under an `op` without operand. -/
theorem decode_eq_error_iff (w : Command) (e : Illegal) :
    decode w = .error e ↔
      (((opField w).toNat = 0 ∨ 13 ≤ (opField w).toNat) ∧ e = .reservedOp (opField w)) ∨
      ((2 ≤ (opField w).toNat ∧ (opField w).toNat ≤ 10) ∧
        immField w ≠ 0#28 ∧ e = .nonZeroImm (opField w) (immField w)) := by
  unfold decode
  split
  case h_1 hop | h_11 hop | h_12 hop => simp [hop]
  case h_13 =>
    simp only [imp_false] at *
    have hreserved : (opField w).toNat = 0 ∨ 13 ≤ (opField w).toNat := by omega
    have hnot : ¬ (2 ≤ (opField w).toNat ∧ (opField w).toNat ≤ 10) := by omega
    rw [Except.error.injEq, eq_comm]
    simp only [hreserved, hnot, true_and, false_and, or_false]
  all_goals
    next hop => simp [noOperand_eq_error_iff, hop]

theorem exists_decode_eq_error_iff (w : Command) :
    (∃ e, decode w = .error e) ↔
      ((opField w).toNat = 0 ∨ 13 ≤ (opField w).toNat) ∨
      (2 ≤ (opField w).toNat ∧ (opField w).toNat ≤ 10) ∧ (immField w).toNat ≠ 0 := by
  simp [decode_eq_error_iff, exists_or, BitVec.toNat_eq]

/-! The step on an illegal word (R213). -/

theorem step_of_decode_eq_error {w : Command} {e : Illegal} {s : State} {rest : List HostMove}
    (hdecode : decode w = .error e) (hhost : s.host = .issue w :: rest) :
    step s = .next { s with host := rest, status := .illegalCommand } := by
  rw [step, nextMove_cons s _ rest hhost]
  simp only [hdecode]
  rfl

/-- Settles O3: the conditions of R85 are read off the branches of the decoder, and the fields are quotient and remainder
of the word by `2^28`. -/
theorem illegalWordsExactly : Obligations.IllegalWordsExactly := by
  refine ⟨fun w => ?_, fun _ _ _ _ => step_of_decode_eq_error, ⟨.reservedOp 0#4, rfl⟩, ⟨.reservedOp 15#4, rfl⟩⟩
  have hop := (opField w).isLt
  rw [exists_decode_eq_error_iff]
  rw [toNat_opField] at hop ⊢
  rw [toNat_immField]
  omega

end Sys2Proof.Proofs
end

section
/-! The parity count (spec/40_layout.md R100, R101): the least integer that the search finds is HAM's real formula. -/

namespace Sys2Proof.Proofs
open Sys2Proof.Machine

/-- R101: `parityCount mode` is the least `r` with `2^r >= mode + r + 1`. -/
theorem parityCount_spec (mode : Mode) :
    mode.val + parityCount mode + 1 ≤ 2 ^ parityCount mode ∧ ∀ r < parityCount mode, 2 ^ r < mode.val + r + 1 := by
  have hfuel : mode.val + (0 + (mode.val + 1)) + 1 ≤ 2 ^ (0 + (mode.val + 1)) := by
    simpa only [Nat.zero_add] using parity_fuel mode.val
  obtain ⟨-, hfits, hleast⟩ := leastParity_spec mode.val (mode.val + 1) 0 hfuel
  exact ⟨hfits, fun r hr => hleast r (Nat.zero_le r) hr⟩

theorem parityCount_le_iff (mode : Mode) (r : Nat) : parityCount mode ≤ r ↔ mode.val + r + 1 ≤ 2 ^ r := by
  obtain ⟨hfits, hleast⟩ := parityCount_spec mode
  constructor
  · intro hle
    induction r, hle using Nat.le_induction with
    | base => exact hfits
    | succ r _ ih => rw [pow_succ]; omega
  · exact fun hr => Nat.le_of_not_lt fun hlt => absurd (hleast r hlt) (by omega)

theorem parityCount_pos (mode : Mode) : 0 < parityCount mode := by
  have hmode := mode.property
  have hzero : ¬ parityCount mode ≤ 0 := by rw [parityCount_le_iff, pow_zero]; omega
  omega

/-- Above `2^(r-1)` the logarithm of `m + 1` exceeds `r - 1`, and the sum being an integer makes up the missing 1; up to
`2^(r-1)` the right side follows without the logarithm. -/
theorem add_le_two_pow_of_logb_add_le {m r : Nat} (h : Real.logb 2 ((m : ℝ) + 1) + (m : ℝ) + 1 ≤ 2 ^ r) :
    m + r + 1 ≤ 2 ^ r := by
  have hlog : 0 ≤ Real.logb 2 ((m : ℝ) + 1) := Real.logb_nonneg one_lt_two (by simp)
  cases r with
  | zero =>
    have hm : (m : ℝ) + 1 ≤ 2 ^ 0 := by linarith
    exact_mod_cast hm
  | succ k =>
    by_cases hm : m + 1 ≤ 2 ^ k
    · have hk : k < 2 ^ k := Nat.lt_two_pow_self
      rw [pow_succ]
      omega
    · have hm' : (2 : ℝ) ^ (k : ℝ) < (m : ℝ) + 1 := by
        rw [Real.rpow_natCast]
        exact_mod_cast Nat.lt_of_not_le hm
      have hk : (k : ℝ) < Real.logb 2 ((m : ℝ) + 1) := (Real.lt_logb_iff_rpow_lt one_lt_two (by positivity)).mpr hm'
      have hlt : (m : ℝ) + k + 1 < 2 ^ (k + 1) := by linarith
      exact Nat.succ_le_of_lt (by exact_mod_cast hlt)

theorem logb_add_le_of_add_le_two_pow {m r : Nat} (h : m + r + 1 ≤ 2 ^ r) :
    Real.logb 2 ((m : ℝ) + 1) + (m : ℝ) + 1 ≤ 2 ^ r := by
  have hm : (m : ℝ) + 1 ≤ 2 ^ (r : ℝ) := by
    rw [Real.rpow_natCast]
    exact_mod_cast (by omega : m + 1 ≤ 2 ^ r)
  have hlog : Real.logb 2 ((m : ℝ) + 1) ≤ r := (Real.logb_le_iff_le_rpow one_lt_two (by positivity)).mpr hm
  have hsum : (m : ℝ) + r + 1 ≤ 2 ^ r := by exact_mod_cast h
  linarith

/-- HAM's formula is at most `r` exactly where the integer search would stop at `r` or before. -/
theorem realFormula_le_iff (mode : Mode) (r : Nat) :
    Real.logb 2 (Real.logb 2 ((mode.val : ℝ) + 1) + (mode.val : ℝ) + 1) ≤ r ↔ parityCount mode ≤ r := by
  have hlog : 0 ≤ Real.logb 2 ((mode.val : ℝ) + 1) := Real.logb_nonneg one_lt_two (by simp)
  have hpos : 0 < Real.logb 2 ((mode.val : ℝ) + 1) + (mode.val : ℝ) + 1 := by positivity
  rw [Real.logb_le_iff_le_rpow one_lt_two hpos, Real.rpow_natCast, parityCount_le_iff]
  exact ⟨add_le_two_pow_of_logb_add_le, logb_add_le_of_add_le_two_pow⟩

/-- Settles O5: the formula is at most the parity count and, the count being at least 1, above its predecessor. -/
theorem parityCountIsRealFormula : Obligations.ParityCountIsRealFormula := by
  intro mode
  obtain ⟨k, hk⟩ := Nat.exists_eq_add_one.mpr (parityCount_pos mode)
  have habove := lt_of_not_ge (mt (realFormula_le_iff mode k).mp (by omega))
  have hbelow := (realFormula_le_iff mode (k + 1)).mpr hk.le
  rw [hk, eq_comm, Int.ceil_eq_iff]
  exact ⟨by simpa using habove, by exact_mod_cast hbelow⟩

end Sys2Proof.Proofs
end

section
/-! `SETMODE` (spec/40_layout.md R110): its word, and the whole state it answers for a valid mode. -/

namespace Sys2Proof.Proofs
open Sys2Proof.Machine

/-! The fields of a word put together from `op` and `imm` (R80). -/

theorem opField_append (op : BitVec 4) (imm : BitVec 28) : opField (op ++ imm) = op :=
  BitVec.extractLsb'_append_eq_left

theorem immField_append (op : BitVec 4) (imm : BitVec 28) : immField (op ++ imm) = imm :=
  BitVec.extractLsb'_append_eq_right

theorem decode_setmode_word (imm : BitVec 28) : decode (0x1#4 ++ imm) = .ok (.setmode (sext28 imm)) := by
  simp [decode, opField_append, immField_append]

theorem exec_setmode_of_valid (s : State) {mode : Mode} (hmode : mode.val ≤ s.params.modeMax.val) :
    exec (.setmode (mode.val : Int)) s =
      .next { s with
        mode := mode.val, pcount := parityCount mode, blen := blockLength mode, synd := 0, uerr := 0, prd := 0,
        brd := 0, bstate := .empty, mem := { s.mem with pay := [] }, status := .ok } :=
  withMode_of hmode

/-- Settles O25: the two faults and the valid mode are the three answers of the operand check. -/
theorem setmodeConfigures : Obligations.SetmodeConfigures := by
  refine ⟨decode_setmode_word, fun _ _ => withMode_invalid, fun _ _ => withMode_unsupported, fun s mode hmode =>
    ⟨_, exec_setmode_of_valid s hmode, rfl, parityCount_spec mode, ?_⟩⟩
  simp [blockLength]

end Sys2Proof.Proofs
end

section
/-! HAM's enumeration of a cover set (spec/41_syndrome_engine.md R121 to R123): its loop lists `cover(s, L)` in increasing
order, and the parity of an order is the XOR over that list. -/

namespace Sys2Proof.Proofs
open Sys2Proof.Machine

/-! The cover set (R122). -/

theorem mem_cover {s L q : Nat} : q ∈ cover s L ↔ 1 ≤ q ∧ q ≤ L ∧ q.testBit s = true := by
  simp [cover, covers, List.mem_range'_1, and_assoc, Nat.add_comm 1 L]

theorem pairwise_cover (s L : Nat) : (cover s L).Pairwise (· < ·) :=
  List.Pairwise.filter (covers s) List.pairwise_lt_range'

theorem cover_succ (s L : Nat) : cover s (L + 1) = cover s L ++ if (L + 1).testBit s then [L + 1] else [] := by
  simp [cover, covers, List.range'_concat, List.filter_singleton, Nat.add_comm 1 L]

theorem cover_of_lt_two_pow {s L : Nat} (h : L < 2 ^ s) : cover s L = [] := by
  refine List.eq_nil_iff_forall_not_mem.mpr fun q hq => ?_
  obtain ⟨-, hqL, hbit⟩ := mem_cover.mp hq
  simp [Nat.testBit_lt_two_pow (hqL.trans_lt h)] at hbit

/-! HAM's loop (R121): its two early stops keep what is within the block, since the numbers they cut increase. -/

theorem mem_takeWhile_le {l : List Nat} (hl : l.Pairwise (· < ·)) {L q : Nat} :
    q ∈ l.takeWhile (· ≤ L) ↔ q ∈ l ∧ q ≤ L := by
  induction l with
  | nil => simp
  | cons a as ih =>
    obtain ⟨ha, has⟩ := List.pairwise_cons.mp hl
    by_cases haL : a ≤ L
    · rw [List.takeWhile_cons_of_pos (by simpa using haL), List.mem_cons, List.mem_cons, ih has]
      grind
    · rw [List.takeWhile_cons_of_neg (by simpa using haL)]
      have hbeyond : ∀ q ∈ as, ¬ q ≤ L := fun q hq => by have := ha q hq; omega
      grind

/-- Before the early stop the starts of the runs are `2^s`, `3*2^s`, … -/
theorem pairwise_allStarts (s n : Nat) : ((List.range n).map fun a => 2 ^ s + a * 2 ^ (s + 1)).Pairwise (· < ·) := by
  refine List.pairwise_lt_range.map _ fun a b hab => ?_
  have := Nat.mul_lt_mul_of_pos_right hab (Nat.two_pow_pos (s + 1))
  omega

theorem pairwise_allRun (p n : Nat) : ((List.range n).map (p + ·)).Pairwise (· < ·) :=
  List.pairwise_lt_range.map _ fun _ _ h => Nat.add_lt_add_left h p

theorem mem_runPositions {s L p q : Nat} : q ∈ runPositions s L p ↔ p ≤ q ∧ q < p + 2 ^ s ∧ q ≤ L := by
  rw [runPositions, mem_takeWhile_le (pairwise_allRun p _)]
  simp only [List.mem_map, List.mem_range]
  constructor
  · rintro ⟨⟨j, hj, rfl⟩, hL⟩
    omega
  · exact fun ⟨hp, hq, hL⟩ => ⟨⟨q - p, by omega, by omega⟩, hL⟩

theorem mem_runStarts {s L p : Nat} : p ∈ runStarts s L ↔ ∃ a, p = 2 ^ s + a * 2 ^ (s + 1) ∧ p ≤ L := by
  rw [runStarts, mem_takeWhile_le (pairwise_allStarts s _)]
  simp only [List.mem_map, List.mem_range]
  constructor
  · rintro ⟨⟨a, -, rfl⟩, hL⟩
    exact ⟨a, rfl, hL⟩
  · rintro ⟨a, rfl, hL⟩
    have ha : a ≤ a * 2 ^ (s + 1) := Nat.le_mul_of_pos_right a (Nat.two_pow_pos _)
    exact ⟨⟨a, Nat.lt_succ_of_le (ha.trans ((Nat.le_add_left _ _).trans hL)), rfl⟩, hL⟩

/-- Digit `s` of a position is 1 exactly inside a run of `2^s` positions from an odd multiple of `2^s`. -/
theorem testBit_iff_in_run {s q : Nat} :
    q.testBit s = true ↔ ∃ a, 2 ^ s + a * 2 ^ (s + 1) ≤ q ∧ q < 2 ^ s + a * 2 ^ (s + 1) + 2 ^ s := by
  have hstart : ∀ a, 2 ^ s + a * 2 ^ (s + 1) = (2 * a + 1) * 2 ^ s := fun a => by ring
  have hend : ∀ a, (2 * a + 1) * 2 ^ s + 2 ^ s = (2 * a + 2) * 2 ^ s := fun a => by ring
  have hquot : ∀ a, ((2 * a + 1) * 2 ^ s ≤ q ∧ q < (2 * a + 2) * 2 ^ s) ↔ q / 2 ^ s = 2 * a + 1 := fun a => by
    rw [← Nat.le_div_iff_mul_le (Nat.two_pow_pos s), ← Nat.div_lt_iff_lt_mul (Nat.two_pow_pos s)]
    omega
  simp only [Nat.testBit_eq_decide_div_mod_eq, decide_eq_true_eq, hstart, hend, hquot]
  exact ⟨fun h => ⟨q / 2 ^ s / 2, by omega⟩, fun ⟨a, ha⟩ => by omega⟩

theorem mem_hamCover {s L q : Nat} : q ∈ hamCover s L ↔ 1 ≤ q ∧ q ≤ L ∧ q.testBit s = true := by
  simp only [hamCover, List.mem_flatMap, mem_runStarts, mem_runPositions, testBit_iff_in_run]
  have hpos := Nat.two_pow_pos s
  constructor
  · rintro ⟨_, ⟨a, rfl, -⟩, hlow, hhigh, hL⟩
    exact ⟨by omega, hL, a, hlow, hhigh⟩
  · rintro ⟨-, hL, a, hlow, hhigh⟩
    exact ⟨_, ⟨a, rfl, hlow.trans hL⟩, hlow, hhigh, hL⟩

/-- Two starts are at least `2^(s+1)` apart, more than a run is long. -/
theorem pairwise_hamCover (s L : Nat) : (hamCover s L).Pairwise (· < ·) := by
  rw [hamCover, List.pairwise_flatMap]
  refine ⟨fun p _ => (pairwise_allRun p _).sublist (List.takeWhile_sublist _),
    ((pairwise_allStarts s _).sublist (List.takeWhile_sublist _)).imp_of_mem fun hp hp' hlt q hq q' hq' => ?_⟩
  obtain ⟨a, rfl, -⟩ := mem_runStarts.mp hp
  obtain ⟨a', rfl, -⟩ := mem_runStarts.mp hp'
  obtain ⟨-, hhigh, -⟩ := mem_runPositions.mp hq
  obtain ⟨hlow, -, -⟩ := mem_runPositions.mp hq'
  have hapart : (a + 1) * 2 ^ (s + 1) ≤ a' * 2 ^ (s + 1) :=
    Nat.mul_le_mul_right _ (Nat.lt_of_mul_lt_mul_right (Nat.lt_of_add_lt_add_left hlt))
  have hrun : (a + 1) * 2 ^ (s + 1) = a * 2 ^ (s + 1) + (2 ^ s + 2 ^ s) := by ring
  omega

theorem hamCover_eq_cover (s L : Nat) : hamCover s L = cover s L :=
  (pairwise_hamCover s L).eq_of_mem_iff (pairwise_cover s L) fun _ => mem_hamCover.trans mem_cover.symm

/-! The XOR over a list of positions. -/

@[simp] theorem xorAt_nil (B : List Bit) : xorAt B [] = false := rfl

theorem xorAt_eq_foldl_map (B : List Bit) (ps : List Nat) : xorAt B ps = (ps.map (bitAt B)).foldl xor false :=
  List.foldl_map.symm

@[simp] theorem xorAt_cons (B : List Bit) (q : Nat) (ps : List Nat) : xorAt B (q :: ps) = (bitAt B q ^^ xorAt B ps) := by
  rw [xorAt_eq_foldl_map, xorAt_eq_foldl_map, List.map_cons, List.foldl_cons, Bool.xor_comm, List.foldl_assoc]

theorem xorAt_append (B : List Bit) (ps qs : List Nat) : xorAt B (ps ++ qs) = (xorAt B ps ^^ xorAt B qs) := by
  induction ps with
  | nil => simp
  | cons p ps ih => simp [ih]

theorem xorAt_congr {A B : List Bit} {ps : List Nat} (h : ∀ q ∈ ps, bitAt A q = bitAt B q) : xorAt A ps = xorAt B ps := by
  induction ps with
  | nil => rfl
  | cons p ps ih =>
    obtain ⟨hp, hps⟩ := List.forall_mem_cons.mp h
    rw [xorAt_cons, xorAt_cons, hp, ih hps]

theorem xorAt_eq_true_iff (B : List Bit) (ps : List Nat) :
    xorAt B ps = true ↔ ps.countP (fun q => bitAt B q) % 2 = 1 := by
  induction ps with
  | nil => simp
  | cons p ps ih =>
    cases hp : bitAt B p
    · simp [hp, ih]
    · rw [xorAt_cons, hp, Bool.true_xor, Bool.not_eq_true', ← Bool.not_eq_true, ih, List.countP_cons, if_pos hp]
      omega

/-! The parity of an order (R123). -/

theorem bitAt_append_left (A C : List Bit) {q : Nat} (h1 : 1 ≤ q) (h2 : q ≤ A.length) : bitAt (A ++ C) q = bitAt A q :=
  List.getD_append _ _ _ _ (by omega)

theorem bitAt_concat (A : List Bit) (b : Bit) : bitAt (A ++ [b]) (A.length + 1) = b := by simp [bitAt]

theorem sind_eq_xorAt_cover (B : List Bit) (s : Nat) : sind B s = xorAt B (cover s B.length) := by
  induction B using List.reverseRecOn with
  | nil => rfl
  | append_singleton A b ih =>
    have hold : xorAt (A ++ [b]) (cover s A.length) = sind A s := by
      rw [ih]
      refine xorAt_congr fun q hq => ?_
      obtain ⟨h1, h2, -⟩ := mem_cover.mp hq
      exact bitAt_append_left A [b] h1 h2
    rw [List.length_append, List.length_singleton, cover_succ, xorAt_append, hold, sind, sindFrom_append]
    cases hbit : (A.length + 1).testBit s <;> simp [sind, sindFrom, covers, Nat.add_comm 1, hbit, bitAt_concat]

/-- Settles O9: HAM's loop lists the cover set, over which the parity is the XOR; an XOR is 1 when an odd number of its
operands are. -/
theorem sindIsHamEnumeration : Obligations.SindIsHamEnumeration := by
  intro B s
  have hsind : sind B s = xorAt B (hamCover s B.length) := by rw [hamCover_eq_cover, sind_eq_xorAt_cover]
  exact ⟨fun _ => mem_hamCover, (pairwise_hamCover s _).imp Nat.ne_of_lt, hsind, hsind ▸ xorAt_eq_true_iff B _⟩

end Sys2Proof.Proofs
end

section
/-! The block in the buffer (spec/10_state.md R24): its parities, and what the invariant says of its layout. -/

namespace Sys2Proof.Proofs
open Sys2Proof.Machine

theorem sind_blkRead (blk : List Bit) (L k : Nat) : sind (blkRead blk L) k = xorAt blk (cover k L) := by
  rw [sind_eq_xorAt_cover, length_blkRead]
  refine xorAt_congr fun q hq => ?_
  obtain ⟨h1, h2, -⟩ := mem_cover.mp hq
  exact bitAt_blkRead blk L q h1 h2

/-- A block is in the buffer only of a configured engine. -/
theorem mode_ne_zero_of_inv {s : State} (hs : s.Inv) (hphase : s.bstate ≠ .empty) : s.mode ≠ 0 := by
  obtain ⟨-, -, -, hempty, -⟩ | ⟨hmode, -⟩ := hs.config
  · exact absurd hempty hphase
  · omega

theorem blen_lt_two_pow_pcount_of_inv {s : State} (hs : s.Inv) : s.blen < 2 ^ s.pcount := by
  obtain ⟨-, hpcount, hblen, -⟩ | ⟨hmode, -, hpcount, hblen⟩ := hs.config
  · simp [hpcount, hblen]
  · rw [hpcount, hblen, blockLength]
    exact Nat.lt_of_succ_le (parityCount_spec _).1

/-- The parity slots lie inside the block (spec/40_layout.md R108 (b)). -/
theorem slot_le_blen_of_inv {s : State} (hs : s.Inv) {k : Nat} (hk : k < s.pcount) : 2 ^ k ≤ s.blen := by
  obtain ⟨-, hpcount, -⟩ | ⟨hmode, -, hpcount, hblen⟩ := hs.config
  · omega
  · rw [hpcount] at hk
    have hslot := (parityCount_spec ⟨s.mode, hmode⟩).2 k hk
    rw [hblen, blockLength]
    omega

end Sys2Proof.Proofs
end

section
/-! `SYNR` (spec/41_syndrome_engine.md R133): the syndrome, digit by digit the parities of the orders (R129), is the XOR of
the positions that hold 1 (R130) in a block short enough for its orders, as every block of a configured engine is. -/

namespace Sys2Proof.Proofs
open Sys2Proof.Machine

/-! The digits of the syndrome (R129). -/

theorem syndrome_succ (P : Nat) (B : List Bit) : syndrome (P + 1) B = 2 ^ P * (sind B P).toNat + syndrome P B := by
  rw [syndrome, List.range_succ, List.foldl_append, Nat.add_comm]
  rfl

theorem syndrome_lt_two_pow (P : Nat) (B : List Bit) : syndrome P B < 2 ^ P := by
  induction P with
  | zero => exact Nat.one_pos
  | succ P ih =>
    rw [syndrome_succ, pow_succ]
    have hdigit := Nat.mul_le_mul_left (2 ^ P) (sind B P).toNat_le
    omega

theorem testBit_syndrome (P : Nat) (B : List Bit) (k : Nat) :
    (syndrome P B).testBit k = (decide (k < P) && sind B k) := by
  induction P with
  | zero => simp [syndrome]
  | succ P ih =>
    rw [syndrome_succ, Nat.testBit_two_pow_mul_add _ (syndrome_lt_two_pow P B)]
    obtain hlt | rfl | hgt := Nat.lt_trichotomy k P
    · simp [ih, hlt, Nat.lt_succ_of_lt hlt]
    · rw [Nat.sub_self, Nat.testBit_bool_toNat]
      simp
    · have habove : ¬ k < P + 1 := by omega
      simp [Nat.testBit_bool_toNat, habove, Nat.not_lt_of_gt hgt, Nat.sub_ne_zero_of_lt hgt]

/-! The XOR of the positions that hold 1 (R130). -/

theorem testBit_onesXorFrom (q : Nat) (B : List Bit) (k : Nat) : (onesXorFrom q B).testBit k = sindFrom k q B := by
  induction B generalizing q with
  | nil => simp [onesXorFrom, sindFrom]
  | cons b bs ih => cases b <;> simp [onesXorFrom, sindFrom, covers, ih]

theorem sind_of_length_lt {B : List Bit} {k : Nat} (h : B.length < 2 ^ k) : sind B k = false := by
  rw [sind_eq_xorAt_cover, cover_of_lt_two_pow h, xorAt_nil]

theorem syndrome_eq_onesXor {P : Nat} {B : List Bit} (h : B.length < 2 ^ P) : syndrome P B = onesXor B := by
  refine Nat.eq_of_testBit_eq fun k => ?_
  rw [testBit_syndrome, onesXor, testBit_onesXorFrom, ← sind]
  by_cases hk : k < P
  · simp [hk]
  · simp [hk, sind_of_length_lt (h.trans_le (Nat.pow_le_pow_right (by decide) (Nat.le_of_not_lt hk)))]

/-! The operation. -/

theorem exec_synr_of_received {s : State} (hmode : s.mode ≠ 0) (hphase : s.bstate = .received) :
    exec .synr s = .next { s with synd := syndrome s.pcount s.block, bstate := .checked, status := .ok } :=
  (inPhase_of ⟨s.mode, Nat.one_le_iff_ne_zero.mpr hmode⟩ rfl hphase : execSynr s = _)

/-- Settles O31: the block is shorter than `2^PCOUNT`, so that its syndrome is the XOR of the positions that hold 1. -/
theorem synrComputesSyndrome : Obligations.SynrComputesSyndrome := by
  refine ⟨rfl, fun s h => (inPhase_refuses h : execSynr s = _), fun s hs hphase =>
    ⟨_, exec_synr_of_received (mode_ne_zero_of_inv hs (by simp [hphase])) hphase, syndrome_eq_onesXor ?_,
      syndrome_lt_two_pow _ _, fun k hk => ?_, ?_⟩⟩
  · simpa [State.block] using blen_lt_two_pow_pcount_of_inv hs
  · simp [testBit_syndrome, hk, State.block, sind_blkRead]
  · simp [sameConfig]

end Sys2Proof.Proofs
end

section
/-! `SYNW` (spec/41_syndrome_engine.md R132): its loop over the orders leaves in each slot the parity taken on the block as it
was before, in whatever order the orders come (R126), and no other cell changes. -/

namespace Sys2Proof.Proofs
open Sys2Proof.Machine

/-! One turn of the loop. -/

theorem bitAt_writeSlot_slot {B : List Bit} {k : Nat} (h : 2 ^ k ≤ B.length) : bitAt (writeSlot B k) (2 ^ k) = sind B k :=
  bitAt_setAt_same B (2 ^ k) _ Nat.one_le_two_pow h

theorem bitAt_writeSlot_other (B : List Bit) {k q : Nat} (h1 : 1 ≤ q) (h : q ≠ 2 ^ k) :
    bitAt (writeSlot B k) q = bitAt B q :=
  bitAt_setAt_other B (2 ^ k) q _ Nat.one_le_two_pow h1 h.symm

/-- R126: the slot of an order is covered by no other order, so writing it leaves their parities as they are. -/
theorem sind_writeSlot_other (B : List Bit) {j k : Nat} (h : j ≠ k) : sind (writeSlot B j) k = sind B k := by
  rw [sind_eq_xorAt_cover, sind_eq_xorAt_cover, length_writeSlot]
  refine xorAt_congr fun q hq => ?_
  obtain ⟨h1, -, hbit⟩ := mem_cover.mp hq
  refine bitAt_writeSlot_other B h1 ?_
  rintro rfl
  simp [Nat.testBit_two_pow_of_ne h] at hbit

/-! The loop over any list of orders. -/

theorem bitAt_foldl_writeSlot_other {orders : List Nat} (B : List Bit) {q : Nat} (h1 : 1 ≤ q)
    (h : ∀ k ∈ orders, q ≠ 2 ^ k) : bitAt (orders.foldl writeSlot B) q = bitAt B q := by
  induction orders generalizing B with
  | nil => rfl
  | cons j js ih =>
    obtain ⟨hj, hjs⟩ := List.forall_mem_cons.mp h
    rw [List.foldl_cons, ih _ hjs, bitAt_writeSlot_other B h1 hj]

theorem bitAt_foldl_writeSlot_slot {orders : List Nat} (horders : orders.Nodup) {B : List Bit} {k : Nat}
    (hk : k ∈ orders) (hlen : 2 ^ k ≤ B.length) : bitAt (orders.foldl writeSlot B) (2 ^ k) = sind B k := by
  induction orders generalizing B with
  | nil => cases hk
  | cons j js ih =>
    obtain ⟨hj, hjs⟩ := List.nodup_cons.mp horders
    rw [List.foldl_cons]
    obtain rfl | hk := List.mem_cons.mp hk
    · have hkept : ∀ i ∈ js, 2 ^ k ≠ 2 ^ i := fun i hi heq => hj (Nat.pow_right_injective (le_refl 2) heq ▸ hi)
      rw [bitAt_foldl_writeSlot_other _ Nat.one_le_two_pow hkept, bitAt_writeSlot_slot hlen]
    · rw [ih hjs hk (by simpa using hlen), sind_writeSlot_other B (ne_of_mem_of_not_mem hk hj).symm]

/-! Encode mode on the register file. -/

theorem bitAt_blkStore_inside (blk : List Bit) {L : Nat} (cells : List Bit) {q : Nat} (h1 : 1 ≤ q) (h2 : q ≤ L) :
    bitAt (blkStore blk L cells) q = bitAt cells q := by
  have h : q - 1 < L := by omega
  simp only [bitAt, getD_blkStore, h, if_true]

/-- The register file after encode mode with `P` orders on its block of length `L`. -/
theorem bitAt_blkStore_writeParity_slot (blk : List Bit) {L P k : Nat} (hk : k < P) (hL : 2 ^ k ≤ L) :
    bitAt (blkStore blk L (writeParity P (blkRead blk L))) (2 ^ k) = xorAt blk (cover k L) := by
  rw [bitAt_blkStore_inside blk _ Nat.one_le_two_pow hL, writeParity,
    bitAt_foldl_writeSlot_slot List.nodup_range (List.mem_range.mpr hk) (by simpa using hL), sind_blkRead]

theorem bitAt_blkStore_writeParity_other (blk : List Bit) {L P q : Nat} (h1 : 1 ≤ q) (h : ∀ k < P, q ≠ 2 ^ k) :
    bitAt (blkStore blk L (writeParity P (blkRead blk L))) q = bitAt blk q := by
  by_cases hL : q ≤ L
  · rw [bitAt_blkStore_inside blk _ h1 hL, writeParity,
      bitAt_foldl_writeSlot_other _ h1 (fun k hk => h k (List.mem_range.mp hk)), bitAt_blkRead blk L q h1 hL]
  · exact bitAt_blkStore_above blk L _ q (Nat.lt_of_not_le hL)

theorem exec_synw_of_reserved {s : State} (hmode : s.mode ≠ 0) (hphase : s.bstate = .reserved) :
    exec .synw s = .next { s with
      blk := blkStore s.blk s.blen (writeParity s.pcount s.block), bstate := .encoded, status := .ok } :=
  (inPhase_of ⟨s.mode, Nat.one_le_iff_ne_zero.mpr hmode⟩ rfl hphase : execSynw s = _)

/-- Settles O28: every slot lies inside the block, where the loop leaves the parity taken on the old block. -/
theorem synwWritesParity : Obligations.SynwWritesParity := by
  refine ⟨rfl, fun s h => (inPhase_refuses h : execSynw s = _), fun s hs hphase =>
    ⟨_, exec_synw_of_reserved (mode_ne_zero_of_inv hs (by simp [hphase])) hphase,
      fun k hk => bitAt_blkStore_writeParity_slot s.blk hk (slot_le_blen_of_inv hs hk),
      fun q h1 h => bitAt_blkStore_writeParity_other s.blk h1 h, ?_⟩⟩
  simp [sameConfig]

end Sys2Proof.Proofs
end

section
/-! The inverter (spec/42_selector_inverter.md R140): what it leaves in each cell, and that inverting position `q` changes the
syndrome by `q` (spec/41_syndrome_engine.md R131), one position after another. -/

namespace Sys2Proof.Proofs
open Sys2Proof.Machine

/-! The cells. -/

theorem bitAt_invertAt_same {B : List Bit} {q : Nat} (h1 : 1 ≤ q) (h2 : q ≤ B.length) :
    bitAt (invertAt B q) q = !bitAt B q :=
  bitAt_setAt_same B q _ h1 h2

theorem bitAt_invertAt_other (B : List Bit) {q r : Nat} (h1 : 1 ≤ q) (h2 : 1 ≤ r) (h : q ≠ r) :
    bitAt (invertAt B q) r = bitAt B r :=
  bitAt_setAt_other B q r _ h1 h2 h

theorem invertAt_invertAt {B : List Bit} {q : Nat} (h1 : 1 ≤ q) (h2 : q ≤ B.length) : invertAt (invertAt B q) q = B := by
  rw [invertAt, bitAt_invertAt_same h1 h2, Bool.not_not, invertAt, setAt, setAt, List.set_set, bitAt,
    List.getD_eq_getElem _ _ (by omega), List.set_getElem_self]

/-! The syndrome. -/

theorem onesXorFrom_set_not (p : Nat) (B : List Bit) {i : Nat} (h : i < B.length) :
    onesXorFrom p (B.set i (!B.getD i false)) = onesXorFrom p B ^^^ (p + i) := by
  induction B generalizing p i with
  | nil => cases h
  | cons b bs ih =>
    cases i with
    | zero => cases b <;> simp [onesXorFrom, Nat.xor_comm]
    | succ i =>
      have htail := ih (p + 1) (Nat.lt_of_succ_lt_succ h)
      rw [List.getD_cons_succ, List.set_cons_succ, onesXorFrom, htail, onesXorFrom, Nat.xor_assoc, Nat.add_right_comm,
        Nat.add_assoc]

theorem syndrome_invertAt {P : Nat} {B : List Bit} {q : Nat} (hB : B.length < 2 ^ P) (h1 : 1 ≤ q) (h2 : q ≤ B.length) :
    syndrome P (invertAt B q) = syndrome P B ^^^ q := by
  rw [syndrome_eq_onesXor hB, syndrome_eq_onesXor (by simpa using hB), onesXor, invertAt, setAt, bitAt,
    onesXorFrom_set_not 1 B (by omega), onesXor, Nat.add_sub_cancel' h1]

@[simp] theorem xorOf_cons (q : Nat) (E : List Nat) : xorOf (q :: E) = q ^^^ xorOf E := by
  rw [xorOf, List.foldl_cons, Nat.xor_comm, List.foldl_assoc]
  rfl

@[simp] theorem length_invertAll (B : List Bit) (E : List Nat) : (invertAll B E).length = B.length := by
  induction E generalizing B with
  | nil => rfl
  | cons q E ih => exact (ih _).trans (length_invertAt B q)

theorem syndrome_invertAll {P : Nat} {B : List Bit} {E : List Nat} (hB : B.length < 2 ^ P)
    (hE : ∀ q ∈ E, 1 ≤ q ∧ q ≤ B.length) : syndrome P (invertAll B E) = syndrome P B ^^^ xorOf E := by
  induction E generalizing B with
  | nil => exact (Nat.xor_zero _).symm
  | cons q E ih =>
    obtain ⟨⟨h1, h2⟩, hrest⟩ := List.forall_mem_cons.mp hE
    have hstep : syndrome P (invertAll B (q :: E)) = syndrome P (invertAt B q) ^^^ xorOf E :=
      ih (by simpa using hB) (by simpa using hrest)
    rw [hstep, syndrome_invertAt hB h1 h2, xorOf_cons, Nat.xor_assoc]

end Sys2Proof.Proofs
end

section
/-! The correction policy on a block (spec/42_selector_inverter.md R140): what it does with several errors (R145). -/

namespace Sys2Proof.Proofs
open Sys2Proof.Machine

theorem correct_zero (B : List Bit) : correct B 0 = (B, 0) := by simp [correct]

theorem correct_inside {B : List Bit} {syn : Nat} (h1 : 1 ≤ syn) (h2 : syn ≤ B.length) :
    correct B syn = (invertAt B syn, 0) := by
  rw [correct, if_neg (by omega), if_pos h2]

/-- Two different positions never cancel (spec/41_syndrome_engine.md R131 (c)). -/
theorem three_le_length_of_xorOf_eq_zero {E : List Nat} (hE : E.Nodup) (hlen : 2 ≤ E.length) (h : xorOf E = 0) :
    3 ≤ E.length := by
  refine Nat.lt_of_le_of_ne hlen fun h2 => ?_
  obtain ⟨a, b, rfl⟩ := List.length_eq_two.mp h2.symm
  have hab : a = b := by simpa [xorOf] using h
  simp [hab] at hE

/-- Two positions never address one another (spec/41_syndrome_engine.md R131 (c)): position 0 does not exist. -/
theorem xorOf_not_mem_of_length_eq_two {E : List Nat} (hE : ∀ q ∈ E, 1 ≤ q) (h : E.length = 2) : xorOf E ∉ E := by
  obtain ⟨a, b, rfl⟩ := List.length_eq_two.mp h
  have ha : a ≠ 0 := Nat.ne_of_gt (hE a (by simp))
  have hb : b ≠ 0 := Nat.ne_of_gt (hE b (by simp))
  simp [xorOf, ha, hb]

theorem blockLength_lt_two_pow (mode : Mode) : blockLength mode < 2 ^ parityCount mode :=
  Nat.lt_of_succ_le (parityCount_spec mode).1

/-- Settles O16: the syndrome of a codeword with the positions `E` inverted is the XOR of `E`, which the policy takes for
the position of a single error. -/
theorem miscorrectionKept : Obligations.MiscorrectionKept := by
  intro mode B E hlen hcode hnodup htwo hE
  have hsyn : syndrome (parityCount mode) (invertAll B E) = xorOf E := by
    rw [syndrome_invertAll (hlen ▸ blockLength_lt_two_pow mode) (hlen ▸ hE), hcode, Nat.zero_xor]
  rw [hsyn]
  constructor
  · intro hzero
    exact ⟨by rw [hzero, correct_zero], three_le_length_of_xorOf_eq_zero hnodup htwo hzero⟩
  · intro h1 h2
    exact ⟨correct_inside h1 (by simpa [hlen] using h2), xorOf_not_mem_of_length_eq_two fun q hq => (hE q hq).1⟩

end Sys2Proof.Proofs
end

section
/-! `CORR` (spec/42_selector_inverter.md R146): the correction policy on the register file, and a received block with one
error corrected by `SYNR` and `CORR` (R143). -/

namespace Sys2Proof.Proofs
open Sys2Proof.Machine

/-! The policy on the register file, cell by cell. -/

theorem bitAt_correctBlk_addressed (blk : List Bit) {L syn : Nat} (u : Nat) (h1 : 1 ≤ syn) (h2 : syn ≤ L) :
    bitAt (correctBlk blk L syn u).1 syn = !bitAt blk syn := by
  rw [correctBlk_inside h1 h2, bitAt_blkStore_inside blk _ h1 h2, bitAt_invertAt_same h1 (by simpa using h2),
    bitAt_blkRead blk L syn h1 h2]

theorem bitAt_correctBlk_other (blk : List Bit) {L syn q : Nat} (u : Nat) (h1 : 1 ≤ q) (h : ¬(q = syn ∧ q ≤ L)) :
    bitAt (correctBlk blk L syn u).1 q = bitAt blk q := by
  obtain rfl | hpos := Nat.eq_zero_or_pos syn
  · rw [correctBlk_zero]
  obtain hout | hin := Nat.lt_or_ge L syn
  · rw [correctBlk_outside hout]
  rw [correctBlk_inside hpos hin]
  by_cases hq : q ≤ L
  · rw [bitAt_blkStore_inside blk _ h1 hq, bitAt_invertAt_other _ hpos h1 (fun heq => h ⟨heq.symm, hq⟩),
      bitAt_blkRead blk L q h1 hq]
  · exact bitAt_blkStore_above blk L _ q (Nat.lt_of_not_le hq)

theorem correctBlk_count (blk : List Bit) (L syn u : Nat) :
    (correctBlk blk L syn u).2 = if L < syn then u + 1 else u := by
  obtain rfl | hpos := Nat.eq_zero_or_pos syn
  · simp [correctBlk_zero]
  obtain hout | hin := Nat.lt_or_ge L syn
  · rw [correctBlk_outside hout, if_pos hout]
  · rw [correctBlk_inside hpos hin, if_neg (Nat.not_lt_of_ge hin)]

/-! The operation. -/

theorem exec_corr_of_checked {s : State} (hmode : s.mode ≠ 0) (hphase : s.bstate = .checked) :
    exec .corr s = .next { s with
      blk := (correctBlk s.blk s.blen s.synd s.uerr).1, uerr := (correctBlk s.blk s.blen s.synd s.uerr).2,
      bstate := .corrected, status := .ok } :=
  (inPhase_of ⟨s.mode, Nat.one_le_iff_ne_zero.mpr hmode⟩ rfl hphase : execCorr s = _)

/-- The length that R130 asks for: the block of a state with the invariant is shorter than `2^PCOUNT`. -/
theorem length_block_lt_of_inv {s : State} (hs : s.Inv) : s.block.length < 2 ^ s.pcount := by
  simpa [State.block] using blen_lt_two_pow_pcount_of_inv hs

/-- Settles O32: in `CHECKED` the invariant holds `SYND` to be the syndrome; the cells and the count by the three branches
of the policy. -/
theorem corrAppliesPolicy : Obligations.CorrAppliesPolicy := by
  refine ⟨rfl, fun s h => (inPhase_refuses h : execCorr s = _),
    fun s hs hphase => (hs.checked hphase).trans (syndrome_eq_onesXor (length_block_lt_of_inv hs)),
    fun s hmode hphase => ⟨_, exec_corr_of_checked hmode hphase, fun q h1 h => bitAt_correctBlk_other s.blk s.uerr h1 h,
      fun h1 h2 => bitAt_correctBlk_addressed s.blk s.uerr h1 h2, correctBlk_count s.blk s.blen s.synd s.uerr, ?_⟩⟩
  simp [sameConfig]

/-- Settles O15: the syndrome of a codeword with position `q` inverted is `q`, inside the block, and `CORR` inverts that
position again. -/
theorem singleErrorsCorrected : Obligations.SingleErrorsCorrected := by
  intro s B q hs hphase hlen hcode h1 h2 hblock
  have hmode : s.mode ≠ 0 := mode_ne_zero_of_inv hs (by simp [hphase])
  have hB : B.length < 2 ^ s.pcount := hlen ▸ blen_lt_two_pow_pcount_of_inv hs
  have hsyn : syndrome s.pcount s.block = q := by
    rw [hblock, syndrome_invertAt hB h1 (hlen ▸ h2), hcode, Nat.zero_xor]
  have hcorr : correctBlk s.blk s.blen q s.uerr = (blkStore s.blk s.blen B, s.uerr) := by
    rw [correctBlk_inside h1 h2, ← State.block, hblock, invertAt_invertAt h1 (hlen ▸ h2)]
  have hsynr := exec_synr_of_received hmode hphase
  rw [hsyn] at hsynr
  refine ⟨_, _, hsynr, exec_corr_of_checked hmode rfl, rfl, rfl, ?_⟩
  simp only [hcorr]
  refine ⟨?_, fun r hr => bitAt_blkStore_above s.blk s.blen B r hr, ?_⟩
  · exact (blkRead_blkStore s.blk s.blen B).trans (fit_of_length B s.blen hlen)
  · simp [sameConfig]

end Sys2Proof.Proofs
end

section
/-! The data positions of a block (spec/40_layout.md R109): the position of data bit `i` is the length of a block of `i` data
bits, so what is known of the parity count places it. -/

namespace Sys2Proof.Proofs
open Sys2Proof.Machine

theorem dataPos_eq_blockLength (i : Mode) : dataPos i.val = blockLength i := by
  rw [dataPos, leastShift_eq_leastParity]
  rfl

theorem parityCount_mono {i j : Mode} (h : i.val ≤ j.val) : parityCount i ≤ parityCount j := by
  have hj := (parityCount_le_iff j _).mp le_rfl
  exact (parityCount_le_iff i _).mpr (by omega)

theorem one_le_dataPos {i : Nat} (h1 : 1 ≤ i) : 1 ≤ dataPos i := h1.trans (Nat.le_add_right _ _)

theorem dataPos_le_blockLength {mode : Mode} {i : Nat} (h1 : 1 ≤ i) (h2 : i ≤ mode.val) : dataPos i ≤ blockLength mode :=
  (dataPos_eq_blockLength ⟨i, h1⟩).trans_le (Nat.add_le_add h2 (parityCount_mono h2))

/-- The length of a block lies strictly between `2^(P-1)` and `2^P`. -/
theorem blockLength_ne_two_pow (mode : Mode) (k : Nat) : blockLength mode ≠ 2 ^ k := by
  obtain ⟨hfits, hleast⟩ := parityCount_spec mode
  rw [blockLength]
  obtain hk | hk := Nat.lt_or_ge k (parityCount mode)
  · have hbelow := hleast k hk
    omega
  · have habove := Nat.pow_le_pow_right Nat.two_pos hk
    omega

theorem dataPos_ne_two_pow {i : Nat} (h1 : 1 ≤ i) (k : Nat) : dataPos i ≠ 2 ^ k :=
  dataPos_eq_blockLength ⟨i, h1⟩ ▸ blockLength_ne_two_pow ⟨i, h1⟩ k

end Sys2Proof.Proofs
end

section
/-! Stripping and reserving (spec/43_block_codec.md R151, R154). Both list procedures are followed cell by cell: after `P`
orders data bit `i` comes from `min(parityCount(i), P)` cells further up. -/

namespace Sys2Proof.Proofs
open Sys2Proof.Machine

/-! The two list procedures. -/

theorem stripDecreasing_succ (P : Nat) (B : List Bit) :
    stripDecreasing (P + 1) B = stripDecreasing P (B.eraseIdx (2 ^ P - 1)) := by
  simp [stripDecreasing, List.range_succ]

theorem stripIncreasing_succ (P : Nat) (B : List Bit) :
    stripIncreasing (P + 1) B = (stripIncreasing P B).eraseIdx (2 ^ P - 1 - P) := by
  simp [stripIncreasing, List.range_succ]

/-! Data bit `i` lies below the slot of order `P` exactly when `parityCount(i) <= P`: no order from `P` on moves it. -/

theorem getElem?_stripDecreasing (P : Nat) (B : List Bit) (i : Mode) :
    (stripDecreasing P B)[i.val - 1]? = B[i.val + min (parityCount i) P - 1]? := by
  have hi := i.property
  induction P generalizing B with
  | zero => simp [stripDecreasing]
  | succ P ih =>
    rw [stripDecreasing_succ, ih, List.getElem?_eraseIdx]
    by_cases hP : parityCount i ≤ P
    · have hbelow := (parityCount_le_iff i P).mp hP
      rw [if_pos (by omega), min_eq_left hP, min_eq_left (by omega)]
    · have habove := mt (parityCount_le_iff i P).mpr hP
      rw [if_neg (by omega), min_eq_right (by omega), min_eq_right (by omega)]
      congr 1
      omega

theorem getElem?_stripIncreasing (P : Nat) (B : List Bit) (i : Mode) :
    (stripIncreasing P B)[i.val - 1]? = B[i.val + min (parityCount i) P - 1]? := by
  have hi := i.property
  induction P generalizing i with
  | zero => simp [stripIncreasing]
  | succ P ih =>
    have hslot : P < 2 ^ P := Nat.lt_two_pow_self
    rw [stripIncreasing_succ, List.getElem?_eraseIdx]
    by_cases hP : parityCount i ≤ P
    · have hbelow := (parityCount_le_iff i P).mp hP
      rw [if_pos (by omega), ih i hi, min_eq_left hP, min_eq_left (by omega)]
    · have habove := mt (parityCount_le_iff i P).mpr hP
      have hmono : parityCount i ≤ parityCount ⟨i.val + 1, by omega⟩ := parityCount_mono (Nat.le_succ _)
      have hnext := ih ⟨i.val + 1, by omega⟩ (by simp)
      rw [min_eq_right (by omega), Nat.add_sub_cancel] at hnext
      rw [if_neg (by omega), Nat.sub_add_cancel hi, hnext, min_eq_right (by omega)]
      congr 1
      dsimp only
      omega

/-! The data bits of a block (R154). -/

theorem getElem?_strip {mode : Mode} {i : Nat} (B : List Bit) (h1 : 1 ≤ i) (h2 : i ≤ mode.val) :
    (strip mode B)[i - 1]? = some (bitAt B (dataPos i)) := by
  simp [strip, Nat.sub_add_cancel h1, show i - 1 < mode.val by omega]

theorem getElem?_eq_some_bitAt {B : List Bit} {q : Nat} (h1 : 1 ≤ q) (h2 : q ≤ B.length) :
    B[q - 1]? = some (bitAt B q) := by
  have h : q - 1 < B.length := by omega
  simp [bitAt, List.getD_eq_getElem?_getD, h]

theorem getElem?_strip_eq {mode : Mode} {i : Nat} {B : List Bit} (hB : B.length = blockLength mode) (h1 : 1 ≤ i)
    (h2 : i ≤ mode.val) : (strip mode B)[i - 1]? = B[dataPos i - 1]? := by
  rw [getElem?_strip B h1 h2, getElem?_eq_some_bitAt (one_le_dataPos h1) (hB ▸ dataPos_le_blockLength h1 h2)]

/-- A list of the data bits, each from its place in the block, is `strip`: a bit past the mode would come from beyond the
block. -/
theorem eq_strip_of_getElem? {mode : Mode} {A B : List Bit} (hB : B.length = blockLength mode)
    (hA : ∀ i : Mode, A[i.val - 1]? = B[i.val + min (parityCount i) (parityCount mode) - 1]?) : A = strip mode B := by
  refine List.ext_getElem? fun j => ?_
  have hj := hA ⟨j + 1, Nat.succ_pos j⟩
  rw [Nat.add_sub_cancel] at hj
  obtain hin | hout := Nat.lt_or_ge j mode.val
  · have hdata := getElem?_strip_eq hB (Nat.succ_pos j) hin
    rw [dataPos_eq_blockLength ⟨j + 1, Nat.succ_pos j⟩, blockLength] at hdata
    rw [hj, min_eq_left (parityCount_mono (i := ⟨j + 1, _⟩) hin)]
    exact hdata.symm
  · have hbeyond : B.length ≤ j + 1 + parityCount mode - 1 := by
      rw [hB, blockLength]
      omega
    rw [hj, min_eq_right (parityCount_mono (j := ⟨j + 1, _⟩) (hout.trans (Nat.le_succ j))),
      List.getElem?_eq_none hbeyond, List.getElem?_eq_none (by simpa using hout)]

theorem strip_eq_stripDecreasing {mode : Mode} {B : List Bit} (hB : B.length = blockLength mode) :
    strip mode B = stripDecreasing (parityCount mode) B :=
  (eq_strip_of_getElem? hB fun i => getElem?_stripDecreasing _ B i).symm

theorem strip_eq_stripIncreasing {mode : Mode} {B : List Bit} (hB : B.length = blockLength mode) :
    strip mode B = stripIncreasing (parityCount mode) B :=
  (eq_strip_of_getElem? hB fun i => getElem?_stripIncreasing _ B i).symm

theorem strip_writeParity (mode : Mode) (P : Nat) (B : List Bit) : strip mode (writeParity P B) = strip mode B := by
  refine List.map_congr_left fun i _ => ?_
  exact bitAt_foldl_writeSlot_other B (one_le_dataPos (Nat.succ_pos i)) fun k _ => dataPos_ne_two_pow (Nat.succ_pos i) k

/-! Reserving (R151). -/

theorem reserve_succ (P : Nat) (c : List Bit) : reserve (P + 1) c = insertSlot (reserve P c) P := by
  simp [reserve, List.range_succ]

/-- Every insertion index of the encode path is inside the list (spec/40_layout.md R108 (d)). -/
theorem length_reserve {mode : Mode} {c : List Bit} (hc : c.length = mode.val) {P : Nat} (hP : P ≤ parityCount mode) :
    (reserve P c).length = mode.val + P := by
  induction P with
  | zero => exact hc
  | succ P ih =>
    have hlen := ih (Nat.le_of_succ_le hP)
    have hinside := (parityCount_spec mode).2 P hP
    rw [reserve_succ, length_insertSlot _ _ (by omega), hlen, Nat.add_assoc]

theorem stripDecreasing_reserve (P : Nat) (c : List Bit) : stripDecreasing P (reserve P c) = c := by
  induction P with
  | zero => rfl
  | succ P ih => rw [stripDecreasing_succ, reserve_succ, insertSlot, parityPos, List.eraseIdx_insertIdx_self, ih]

theorem strip_reserve {mode : Mode} {c : List Bit} (hc : c.length = mode.val) :
    strip mode (reserve (parityCount mode) c) = c := by
  rw [strip_eq_stripDecreasing (length_reserve hc le_rfl), stripDecreasing_reserve]

/-- Settles O19: both list procedures take each data bit from its position, and erasing in decreasing order takes back
the insertions of `reserve` one by one. -/
theorem stripInvertsReserve : Obligations.StripInvertsReserve := by
  refine ⟨fun mode c hc => ⟨strip_reserve hc, (strip_writeParity mode _ _).trans (strip_reserve hc)⟩,
    fun mode B hB => ⟨length_strip mode B, fun i h1 h2 => getElem?_strip_eq hB h1 h2, strip_eq_stripDecreasing hB,
      strip_eq_stripIncreasing hB⟩, by decide⟩

end Sys2Proof.Proofs
end

section
/-! `UNPACK` and `PACK` (spec/43_block_codec.md R170, R175): the padded payload of a message (R156), and the bits regrouped
into bytes. -/

namespace Sys2Proof.Proofs
open Sys2Proof.Machine

theorem inPhase_of_ne_zero {p : Phase} {s : State} {k : Mode → Result} (hmode : s.mode ≠ 0) (hphase : s.bstate = p) :
    inPhase p s k = k ⟨s.mode, Nat.one_le_iff_ne_zero.mpr hmode⟩ :=
  inPhase_of _ rfl hphase

/-! The padded payload (R156). -/

theorem le_ceildiv_mul (a : Nat) {b : Nat} (hb : 1 ≤ b) : a ≤ ceildiv a b * b := by
  have hlt := Nat.lt_div_mul_add (a := a + b - 1) hb
  rw [ceildiv]
  omega

theorem length_payload (m : List Byte) (mode : Mode) : (payload m mode).length = blockCount m mode * mode.val := by
  have hle := le_ceildiv_mul (8 * m.length) mode.property
  rw [payload, List.length_append, length_bitsOfBytes, length_zeros, blockCount]
  omega

theorem getElem?_payload_message {m : List Byte} (mode : Mode) {i j : Nat} (hi : i < m.length) (hj : j < 8) :
    (payload m mode)[8 * i + j]? = (m[i]?).map fun x => x.getLsbD (7 - j) := by
  rw [payload, List.getElem?_append_left (by rw [length_bitsOfBytes]; omega), getElem?_bitsOfBytes m i hj]

theorem getElem?_payload_pad {m : List Byte} {mode : Mode} {x : Nat} (h1 : 8 * m.length ≤ x)
    (h2 : x < (payload m mode).length) : (payload m mode)[x]? = some false := by
  have hx : x - 8 * m.length < blockCount m mode * mode.val - 8 * m.length := by
    rw [length_payload] at h2
    omega
  rw [payload, List.getElem?_append_right (by rwa [length_bitsOfBytes]), length_bitsOfBytes, zeros,
    List.getElem?_replicate_of_lt hx]

/-! `UNPACK`. -/

theorem exec_unpack_of_empty {s : State} (hmode : s.mode ≠ 0) (hphase : s.bstate = .empty) :
    exec .unpack s =
      inCapacity (ceildiv (8 * s.mem.msg.length) s.mode * s.mode) s (.next { s with
        mem := ⟨s.mem.msg, payload s.mem.msg ⟨s.mode, Nat.one_le_iff_ne_zero.mpr hmode⟩, []⟩, prd := 0, brd := 0,
        status := .ok }) :=
  (inPhase_of_ne_zero hmode hphase : execUnpack s = _)

/-- Settles O26: the message stands at the front of the padded payload, the zeros behind it. -/
theorem unpackBuildsPayload : Obligations.UnpackBuildsPayload := by
  refine ⟨rfl, fun s h => (inPhase_refuses h : execUnpack s = _),
    fun s hmode hphase hcap => (exec_unpack_of_empty hmode hphase).trans (inCapacity_refuses hcap),
    fun s hmode hphase hcap => ⟨_, (exec_unpack_of_empty hmode hphase).trans (inCapacity_of hcap),
      length_payload s.mem.msg _, fun i j hi hj => getElem?_payload_message _ hi hj,
      fun x h1 h2 => getElem?_payload_pad h1 h2, ?_⟩⟩
  simp [sameConfig]

/-! `PACK`. -/

theorem bitsOfByte_byteOfBits (b0 b1 b2 b3 b4 b5 b6 b7 : Bit) :
    bitsOfByte (byteOfBits b0 b1 b2 b3 b4 b5 b6 b7) = [b0, b1, b2, b3, b4, b5, b6, b7] := by
  revert b0 b1 b2 b3 b4 b5 b6 b7
  decide

theorem bitsOfBytes_bytesOfBits (b : List Bit) : bitsOfBytes (bytesOfBits b) = b.take (8 * (b.length / 8)) := by
  induction b using octet_induction with
  | short b h => simp [bytesOfBits_of_length_lt h, Nat.div_eq_of_lt h, bitsOfBytes]
  | octet b0 b1 b2 b3 b4 b5 b6 b7 rest ih =>
    rw [bytesOfBits, bitsOfBytes, bitsOfByte_byteOfBits, ih, length_div_eight_octet, Nat.mul_add]
    rfl

theorem getElem?_bytesOfBits_bit {b : List Bit} {i j : Nat} (hi : i < (bytesOfBits b).length) (hj : j < 8) :
    ((bytesOfBits b)[i]?).map (fun x => x.getLsbD (7 - j)) = b[8 * i + j]? := by
  rw [length_bytesOfBits] at hi
  rw [← getElem?_bitsOfBytes _ i hj, bitsOfBytes_bytesOfBits, List.getElem?_take_of_lt (by omega)]

theorem exec_pack_of_empty {s : State} (hmode : s.mode ≠ 0) (hphase : s.bstate = .empty) :
    exec .pack s = .next { s with mem := ⟨bytesOfBits s.mem.pay, s.mem.pay, s.mem.bits⟩, status := .ok } :=
  (inPhase_of_ne_zero hmode hphase : execPack s = _)

/-- Settles O34: the bits of the bytes are the bits of `PAY` up to its last whole byte. -/
theorem packDeliversBytes : Obligations.PackDeliversBytes := by
  refine ⟨rfl, fun s h => (inPhase_refuses h : execPack s = _), fun s hmode hphase =>
    ⟨_, exec_pack_of_empty hmode hphase, length_bytesOfBits s.mem.pay,
      fun i j hi hj => getElem?_bytesOfBits_bit hi hj, ?_⟩⟩
  simp [sameConfig]

end Sys2Proof.Proofs
end

section
/-! The operations that move one block between the block buffer and the spaces: `STBLK`, `LDBLK`, `LDCHUNK`, `STRIP`
(spec/43_block_codec.md R171 to R174). -/

namespace Sys2Proof.Proofs
open Sys2Proof.Machine

theorem getElem?_append_at {S v : List Bit} {i : Nat} (h1 : 1 ≤ i) : (S ++ v)[S.length + i - 1]? = v[i - 1]? := by
  rw [List.getElem?_append_right (by omega), Nat.add_sub_assoc h1, Nat.add_sub_cancel_left]

/-- The cells of a run of a space, within the run and within the space. -/
theorem getElem?_eq_some_bitAt_memRead {S : List Bit} {a n q : Nat} (h1 : 1 ≤ q) (h2 : q ≤ n) (hrun : a + n ≤ S.length) :
    S[a + q - 1]? = some (bitAt (memRead S a n) q) := by
  rw [← getElem?_eq_some_bitAt h1 (by rw [length_memRead]; omega), getElem?_memRead, if_pos (by omega),
    Nat.add_sub_assoc h1]

/-! `STBLK`. -/

theorem exec_stblk_of_encoded {s : State} (hmode : s.mode ≠ 0) (hphase : s.bstate = .encoded) :
    exec .stblk s = inCapacity (s.mem.bits.length + s.blen) s (.next { s with
      mem := s.mem.appendBits s.blen s.block, bstate := .empty, status := .ok }) :=
  (inPhase_of_ne_zero hmode hphase : execStblk s = _)

/-- Settles O29: the write at the end of `BITS` appends the block. -/
theorem stblkAppendsBlock : Obligations.StblkAppendsBlock := by
  refine ⟨rfl, fun s h => (inPhase_refuses h : execStblk s = _),
    fun s hmode hphase hcap => (exec_stblk_of_encoded hmode hphase).trans (inCapacity_refuses hcap),
    fun s hmode hphase hcap =>
      ⟨_, (exec_stblk_of_encoded hmode hphase).trans (inCapacity_of hcap), ?_, ?_, fun q h1 h2 => ?_, ?_⟩⟩
  · simp [State.block]
  · simp
  · have hcell : s.block[q - 1]? = some (bitAt s.blk q) := by
      rw [getElem?_eq_some_bitAt h1 (by simpa [State.block] using h2), State.block, bitAt_blkRead s.blk s.blen q h1 h2]
    rw [Memory.appendBits_bits, memWrite_at_end, getElem?_append_at h1, hcell]
  · simp [sameConfig]

/-! `LDBLK`. -/

theorem exec_ldblk_of_empty {s : State} (hmode : s.mode ≠ 0) (hphase : s.bstate = .empty) :
    exec .ldblk s = inSpace s.brd s.blen s.mem.bits.length s (.next { s with
      blk := blkStore s.blk s.blen (memRead s.mem.bits s.brd s.blen), brd := s.brd + s.blen, bstate := .received,
      status := .ok }) :=
  (inPhase_of_ne_zero hmode hphase : execLdblk s = _)

/-- Settles O30: the cells stored are the run of `BITS` from `BRD`. -/
theorem ldblkLoadsBlock : Obligations.LdblkLoadsBlock := by
  refine ⟨rfl, fun s h => (inPhase_refuses h : execLdblk s = _),
    fun s hmode hphase hend => (exec_ldblk_of_empty hmode hphase).trans (inSpace_refuses hend),
    fun s hmode hphase hrun => ⟨_, (exec_ldblk_of_empty hmode hphase).trans (inSpace_of hrun), fun q h1 h2 => ?_,
      fun q hq => bitAt_blkStore_above s.blk s.blen _ q hq, ?_⟩⟩
  · rw [bitAt_blkStore_inside s.blk _ h1 h2, getElem?_eq_some_bitAt_memRead h1 h2 hrun]
  · simp [sameConfig]

/-! `LDCHUNK`: the slots of a reserved block hold 0, since a later insertion comes above the slots of the earlier ones. -/

theorem bitAt_insertSlot_slot (B : List Bit) (k : Nat) : bitAt (insertSlot B k) (2 ^ k) = false := by
  rw [bitAt, insertSlot, parityPos, List.getD_eq_getElem?_getD, List.getElem?_insertIdx_self]
  split <;> rfl

theorem bitAt_insertSlot_below (B : List Bit) {k q : Nat} (h1 : 1 ≤ q) (h : q < 2 ^ k) :
    bitAt (insertSlot B k) q = bitAt B q := by
  rw [bitAt, insertSlot, parityPos, List.getD_eq_getElem?_getD, List.getElem?_insertIdx_of_lt (by omega), bitAt,
    List.getD_eq_getElem?_getD]

theorem bitAt_reserve_slot (c : List Bit) {P k : Nat} (hk : k < P) : bitAt (reserve P c) (2 ^ k) = false := by
  induction P, hk using Nat.le_induction with
  | base => rw [reserve_succ, bitAt_insertSlot_slot]
  | succ P hk ih => rw [reserve_succ, bitAt_insertSlot_below _ Nat.one_le_two_pow (Nat.pow_lt_pow_right one_lt_two hk), ih]

/-- R152: data bit `i` of the chunk stands at its data position. -/
theorem bitAt_reserve_dataPos {mode : Mode} {c : List Bit} (hc : c.length = mode.val) {i : Nat} (h1 : 1 ≤ i)
    (h2 : i ≤ mode.val) : bitAt (reserve (parityCount mode) c) (dataPos i) = bitAt c i := by
  have hdata := getElem?_strip (reserve (parityCount mode) c) h1 h2
  rw [strip_reserve hc, getElem?_eq_some_bitAt h1 (hc ▸ h2)] at hdata
  exact (Option.some.inj hdata).symm

/-- What the invariant says of the layout of a configured engine. -/
theorem layout_of_inv {s : State} (hs : s.Inv) (hmode : s.mode ≠ 0) :
    s.pcount = parityCount ⟨s.mode, Nat.one_le_iff_ne_zero.mpr hmode⟩ ∧
      s.blen = blockLength ⟨s.mode, Nat.one_le_iff_ne_zero.mpr hmode⟩ := by
  obtain ⟨hzero, -⟩ | ⟨_, -, hpcount, hblen⟩ := hs.config
  · exact absurd hzero hmode
  · exact ⟨hpcount, hblen⟩

theorem dataPos_le_blen_of_inv {s : State} (hs : s.Inv) (hmode : s.mode ≠ 0) {i : Nat} (h1 : 1 ≤ i) (h2 : i ≤ s.mode) :
    dataPos i ≤ s.blen := by
  rw [(layout_of_inv hs hmode).2]
  exact dataPos_le_blockLength h1 h2

theorem exec_ldchunk_of_empty {s : State} (hmode : s.mode ≠ 0) (hphase : s.bstate = .empty) :
    exec .ldchunk s = inSpace s.prd s.mode s.mem.pay.length s (.next { s with
      blk := blkStore s.blk s.blen (reserve s.pcount (memRead s.mem.pay s.prd s.mode)), prd := s.prd + s.mode,
      bstate := .reserved, status := .ok }) :=
  (inPhase_of_ne_zero hmode hphase : execLdchunk s = _)

/-- Settles O27: slots and data positions lie inside the block, where the store leaves the cells of the reserved chunk. -/
theorem ldchunkReservesChunk : Obligations.LdchunkReservesChunk := by
  refine ⟨rfl, fun s h => (inPhase_refuses h : execLdchunk s = _),
    fun s hmode hphase hend => (exec_ldchunk_of_empty hmode hphase).trans (inSpace_refuses hend),
    fun s hs hmode hphase hrun => ⟨_, (exec_ldchunk_of_empty hmode hphase).trans (inSpace_of hrun), fun k hk => ?_,
      fun i h1 h2 => ?_, fun q hq => bitAt_blkStore_above s.blk s.blen _ q hq, ?_⟩⟩
  · rw [bitAt_blkStore_inside s.blk _ Nat.one_le_two_pow (slot_le_blen_of_inv hs hk), bitAt_reserve_slot _ hk]
  · have hchunk : (memRead s.mem.pay s.prd s.mode).length = s.mode := by rw [length_memRead]; omega
    rw [getElem?_eq_some_bitAt_memRead h1 h2 hrun,
      bitAt_blkStore_inside s.blk _ (one_le_dataPos h1) (dataPos_le_blen_of_inv hs hmode h1 h2),
      (layout_of_inv hs hmode).1, bitAt_reserve_dataPos hchunk h1 h2]
  · simp [sameConfig]

/-! `STRIP`. -/

theorem exec_strip_of_corrected {s : State} (hmode : s.mode ≠ 0) (hphase : s.bstate = .corrected) :
    exec .strip s = inCapacity (s.mem.pay.length + s.mode) s (.next { s with
      mem := s.mem.appendPay s.mode (strip ⟨s.mode, Nat.one_le_iff_ne_zero.mpr hmode⟩ s.block), bstate := .empty,
      status := .ok }) :=
  (inPhase_of_ne_zero hmode hphase : execStrip s = _)

/-- Settles O33: the data positions lie inside the block, so the bits appended are the cells of the register file. -/
theorem stripAppendsData : Obligations.StripAppendsData := by
  refine ⟨rfl, fun s h => (inPhase_refuses h : execStrip s = _),
    fun s hmode hphase hcap => (exec_strip_of_corrected hmode hphase).trans (inCapacity_refuses hcap),
    fun s hs hphase hcap => ?_⟩
  have hmode := mode_ne_zero_of_inv hs (by simp [hphase])
  refine ⟨_, (exec_strip_of_corrected hmode hphase).trans (inCapacity_of hcap), by simp, by simp, fun i h1 h2 => ?_, ?_⟩
  · rw [Memory.appendPay_pay, memWrite_at_end, getElem?_append_at h1, getElem?_strip _ h1 h2, State.block,
      bitAt_blkRead s.blk s.blen _ (one_le_dataPos h1) (dataPos_le_blen_of_inv hs hmode h1 h2)]
  · simp [sameConfig]

end Sys2Proof.Proofs
end

section
/-! The block loops of `ENCODE` and `DECODE` share their register file: each block is stored over the one before it. -/

namespace Sys2Proof.Proofs
open Sys2Proof.Machine

/-- The register file after the blocks `0` to `n - 1` of length `L` have been stored in turn: the last one over the old
cells, the old cells when there is none. -/
def storedInTurn (blk : List Bit) (L : Nat) (block : Nat → List Bit) : Nat → List Bit
  | 0 => blk
  | n + 1 => blkStore blk L (block n)

theorem blkStore_storedInTurn (blk : List Bit) (L : Nat) (block : Nat → List Bit) (n : Nat) (cells : List Bit) :
    blkStore (storedInTurn blk L block n) L cells = blkStore blk L cells := by
  cases n with
  | zero => rfl
  | succ n => exact blkStore_blkStore blk L (block n) cells

theorem bitAt_storedInTurn_above (blk : List Bit) {L : Nat} (block : Nat → List Bit) (n : Nat) {q : Nat} (h : L < q) :
    bitAt (storedInTurn blk L block n) q = bitAt blk q := by
  cases n with
  | zero => rfl
  | succ n => exact bitAt_blkStore_above blk L (block n) q h

theorem blkRead_blkStore_of_length (blk : List Bit) {L : Nat} {B : List Bit} (hB : B.length = L) :
    blkRead (blkStore blk L B) L = B :=
  (blkRead_blkStore blk L B).trans (fit_of_length B L hB)

theorem blkRead_storedInTurn (blk : List Bit) {L : Nat} {block : Nat → List Bit} {n : Nat} (hn : n ≠ 0)
    (hblock : (block (n - 1)).length = L) : blkRead (storedInTurn blk L block n) L = block (n - 1) := by
  obtain ⟨k, rfl⟩ := Nat.exists_eq_succ_of_ne_zero hn
  exact blkRead_blkStore_of_length blk hblock

theorem length_piece {a : List Bit} {n k : Nat} (h : (k + 1) * n ≤ a.length) : (piece a n k).length = n := by
  rw [Nat.succ_mul] at h
  rw [piece, length_memRead]
  omega

end Sys2Proof.Proofs
end

section
/-! `ENCODE` (spec/43_block_codec.md R176): the whole state it answers. -/

namespace Sys2Proof.Proofs
open Sys2Proof.Machine

theorem decode_encode_word (imm : BitVec 28) : decode (0xB#4 ++ imm) = .ok (.encode (sext28 imm)) := by
  simp [decode, opField_append, immField_append]

/-! One block (R153). -/

theorem writeParity_succ (P : Nat) (B : List Bit) : writeParity (P + 1) B = writeSlot (writeParity P B) P := by
  simp [writeParity, List.range_succ]

theorem length_writeParity (P : Nat) (B : List Bit) : (writeParity P B).length = B.length := by
  induction P with
  | zero => rfl
  | succ P ih => rw [writeParity_succ, length_writeSlot, ih]

theorem length_encodeBlock {mode : Mode} {c : List Bit} (hc : c.length = mode.val) :
    (encodeBlock mode c).length = blockLength mode := by
  rw [encodeBlock, length_writeParity, length_reserve hc le_rfl, blockLength]

/-! The stream (R157). -/

theorem encodeStream_eq (m : List Byte) (mode : Mode) :
    encodeStream m mode =
      (List.range (blockCount m mode)).flatMap fun k => encodeBlock mode (piece (payload m mode) mode.val k) := by
  rw [encodeStream, length_payload, Nat.mul_div_cancel _ mode.property]

theorem blockCount_eq_zero_iff (m : List Byte) (mode : Mode) : blockCount m mode = 0 ↔ m = [] := by
  have hmode := mode.property
  constructor
  · intro hn
    have hle : 8 * m.length ≤ blockCount m mode * mode.val := le_ceildiv_mul _ hmode
    rw [hn, Nat.zero_mul] at hle
    exact List.length_eq_zero_iff.mp (by omega)
  · rintro rfl
    exact Nat.div_eq_of_lt (by simp; omega)

theorem encodeStep_eq {mode : Mode} {pay : List Bit} {k : Nat} (acc : List Bit × List Bit)
    (hk : (k + 1) * mode.val ≤ pay.length) :
    encodeStep mode pay acc k =
      (blkStore acc.1 (blockLength mode) (encodeBlock mode (piece pay mode.val k)),
        acc.2 ++ encodeBlock mode (piece pay mode.val k)) := by
  rw [encodeStep, blkRead_blkStore_of_length _ (length_encodeBlock (length_piece hk))]

theorem foldl_encodeStep {mode : Mode} {pay : List Bit} (blk : List Bit) {n : Nat} (hn : n * mode.val ≤ pay.length) :
    (List.range n).foldl (encodeStep mode pay) (blk, []) =
      (storedInTurn blk (blockLength mode) (fun k => encodeBlock mode (piece pay mode.val k)) n,
        (List.range n).flatMap fun k => encodeBlock mode (piece pay mode.val k)) := by
  induction n with
  | zero => rfl
  | succ n ih =>
    rw [List.range_succ, List.foldl_append, ih ((Nat.mul_le_mul_right _ n.le_succ).trans hn), List.foldl_cons,
      List.foldl_nil, encodeStep_eq _ hn, blkStore_storedInTurn, List.flatMap_append, List.flatMap_singleton]
    rfl

/-! The operation. -/

theorem exec_encode_of_valid (s : State) {mode : Mode} (hmode : mode.val ≤ s.params.modeMax.val) :
    exec (.encode (mode.val : Int)) s =
      inCapacity (ceildiv (8 * s.mem.msg.length) mode.val * blockLength mode) s (.next { s with
        mode := mode.val, pcount := parityCount mode, blen := blockLength mode, synd := 0, uerr := 0, brd := 0,
        mem := ⟨s.mem.msg, payload s.mem.msg mode, encodeStream s.mem.msg mode⟩,
        blk := storedInTurn s.blk (blockLength mode)
          (fun k => encodeBlock mode (piece (payload s.mem.msg mode) mode.val k)) (blockCount s.mem.msg mode),
        prd := ceildiv (8 * s.mem.msg.length) mode.val * mode.val, bstate := .empty, status := .ok }) := by
  have hop : exec (.encode (mode.val : Int)) s = _ := withMode_of hmode
  rw [hop]
  dsimp only
  rw [foldl_encodeStep s.blk (length_payload s.mem.msg mode).ge, ← encodeStream_eq]
  rfl

/-- Settles O35: the loop appends the stream's blocks and leaves the last of them in the register file. -/
theorem encodeEncodesStream : Obligations.EncodeEncodesStream := by
  refine ⟨decode_encode_word, fun _ _ => withMode_invalid, fun _ _ => withMode_unsupported,
    fun s mode hmode hcap => (exec_encode_of_valid s hmode).trans (inCapacity_refuses hcap),
    fun s mode hmode hcap => ⟨_, (exec_encode_of_valid s hmode).trans (inCapacity_of hcap), rfl, rfl, rfl, rfl, rfl, rfl,
      rfl, rfl, rfl, fun hmsg => ?_, fun hmsg => ?_, fun q hq => bitAt_storedInTurn_above s.blk _ _ hq, by simp⟩⟩
  · rw [(blockCount_eq_zero_iff s.mem.msg mode).mpr hmsg, storedInTurn]
  · have hn : blockCount s.mem.msg mode ≠ 0 := mt (blockCount_eq_zero_iff s.mem.msg mode).mp hmsg
    refine blkRead_storedInTurn s.blk hn (length_encodeBlock (length_piece ?_))
    rw [Nat.sub_add_cancel (Nat.pos_of_ne_zero hn), length_payload]

end Sys2Proof.Proofs
end

section
/-! `DECODE` (spec/43_block_codec.md R177): the whole state it answers. -/

namespace Sys2Proof.Proofs
open Sys2Proof.Machine

theorem decode_decode_word (imm : BitVec 28) : decode (0xC#4 ++ imm) = .ok (.decode (sext28 imm)) := by
  simp [decode, opField_append, immField_append]

/-! One block (R155). -/

theorem correct_outside {B : List Bit} {syn : Nat} (h : B.length < syn) : correct B syn = (B, 1) := by
  rw [correct, if_neg (by omega), if_neg (by omega)]

/-- The policy on the register file is the policy on the block that stands in it. -/
theorem correctBlk_blkStore (blk : List Bit) {L : Nat} {B : List Bit} (hB : B.length = L) (syn u : Nat) :
    correctBlk (blkStore blk L B) L syn u = (blkStore blk L (correct B syn).1, u + (correct B syn).2) := by
  obtain rfl | hpos := Nat.eq_zero_or_pos syn
  · rw [correctBlk_zero, correct_zero]
    rfl
  obtain hout | hin := Nat.lt_or_ge L syn
  · rw [correctBlk_outside hout, correct_outside (hB ▸ hout)]
  · rw [correctBlk_inside hpos hin, blkRead_blkStore_of_length blk hB, blkStore_blkStore, correct_inside hpos (hB ▸ hin)]
    rfl

/-- The block after correction. -/
def correctedBlock (mode : Mode) (B : List Bit) : List Bit := (correct B (syndrome (parityCount mode) B)).1

theorem length_correctedBlock (mode : Mode) (B : List Bit) : (correctedBlock mode B).length = B.length :=
  length_correct B _

theorem decodeBlock_eq (mode : Mode) (B : List Bit) :
    decodeBlock mode B = (strip mode (correctedBlock mode B), (correct B (syndrome (parityCount mode) B)).2) := rfl

theorem decodeBlockStep_eq {mode : Mode} {bits : List Bit} {k : Nat} (acc : DecodeAcc)
    (hk : (k + 1) * blockLength mode ≤ bits.length) :
    decodeBlockStep mode bits acc k =
      ⟨blkStore acc.blk (blockLength mode) (correctedBlock mode (piece bits (blockLength mode) k)),
        syndrome (parityCount mode) (piece bits (blockLength mode) k),
        acc.uerr + (decodeBlock mode (piece bits (blockLength mode) k)).2,
        acc.pay ++ (decodeBlock mode (piece bits (blockLength mode) k)).1⟩ := by
  have hpiece := length_piece hk
  simp only [decodeBlockStep, blkRead_blkStore_of_length _ hpiece, correctBlk_blkStore _ hpiece,
    blkRead_blkStore_of_length _ ((length_correct _ _).trans hpiece), decodeBlock_eq, correctedBlock]

/-! The loop (R158). -/

/-- The first `n` blocks of a received stream, decoded one by one. -/
def firstDecoded (mode : Mode) (bits : List Bit) (n : Nat) : List (List Bit × Nat) :=
  (List.range n).map fun k => decodeBlock mode (piece bits (blockLength mode) k)

theorem decodedBlocks_eq_firstDecoded (bits : List Bit) (mode : Mode) :
    decodedBlocks bits mode = firstDecoded mode bits (bits.length / blockLength mode) := rfl

theorem firstDecoded_succ (mode : Mode) (bits : List Bit) (n : Nat) :
    firstDecoded mode bits (n + 1) =
      firstDecoded mode bits n ++ [decodeBlock mode (piece bits (blockLength mode) n)] := by
  simp [firstDecoded, List.range_succ]

/-- `SYND` after the first `n` blocks: the syndrome of the last one, 0 when there is none. -/
def lastSyndrome (mode : Mode) (bits : List Bit) : Nat → Nat
  | 0 => 0
  | n + 1 => syndrome (parityCount mode) (piece bits (blockLength mode) n)

theorem lastSyndrome_of_ne_zero (mode : Mode) (bits : List Bit) {n : Nat} (hn : n ≠ 0) :
    lastSyndrome mode bits n = syndrome (parityCount mode) (piece bits (blockLength mode) (n - 1)) := by
  obtain ⟨k, rfl⟩ := Nat.exists_eq_succ_of_ne_zero hn
  rfl

theorem foldl_decodeBlockStep {mode : Mode} {bits : List Bit} (blk : List Bit) {n : Nat}
    (hn : n * blockLength mode ≤ bits.length) :
    (List.range n).foldl (decodeBlockStep mode bits) ⟨blk, 0, 0, []⟩ =
      ⟨storedInTurn blk (blockLength mode) (fun k => correctedBlock mode (piece bits (blockLength mode) k)) n,
        lastSyndrome mode bits n, ((firstDecoded mode bits n).map Prod.snd).sum,
        (firstDecoded mode bits n).flatMap Prod.fst⟩ := by
  induction n with
  | zero => rfl
  | succ n ih =>
    rw [List.range_succ, List.foldl_append, ih ((Nat.mul_le_mul_right _ n.le_succ).trans hn), List.foldl_cons,
      List.foldl_nil, decodeBlockStep_eq _ hn, blkStore_storedInTurn, firstDecoded_succ]
    simp [storedInTurn, lastSyndrome]

/-! The operation. -/

theorem exec_decode_of_valid (s : State) {mode : Mode} (hmode : mode.val ≤ s.params.modeMax.val) :
    exec (.decode (mode.val : Int)) s = .next { s with
      mode := mode.val, pcount := parityCount mode, blen := blockLength mode,
      synd := lastSyndrome mode s.mem.bits (s.mem.bits.length / blockLength mode),
      uerr := (decodeStream s.mem.bits mode).2, prd := 0,
      blk := storedInTurn s.blk (blockLength mode)
        (fun k => correctedBlock mode (piece s.mem.bits (blockLength mode) k)) (s.mem.bits.length / blockLength mode),
      brd := s.mem.bits.length / blockLength mode * blockLength mode,
      mem := ⟨(decodeStream s.mem.bits mode).1, (decodedBlocks s.mem.bits mode).flatMap Prod.fst, s.mem.bits⟩,
      bstate := .empty, status := .ok } := by
  have hop : exec (.decode (mode.val : Int)) s = _ := withMode_of hmode
  rw [hop]
  dsimp only
  rw [foldl_decodeBlockStep s.blk (Nat.div_mul_le_self _ _), ← decodedBlocks_eq_firstDecoded]
  rfl

theorem blockLength_pos (mode : Mode) : 0 < blockLength mode := Nat.add_pos_left mode.property _

/-- Settles O36: the loop counts and appends as the stream function does and leaves the last block in the register file,
corrected by its syndrome. -/
theorem decodeDecodesStream : Obligations.DecodeDecodesStream := by
  refine ⟨decode_decode_word, fun _ _ => withMode_invalid, fun _ _ => withMode_unsupported, fun s mode hmode =>
    ⟨_, exec_decode_of_valid s hmode, rfl, rfl, rfl, rfl, rfl, rfl, rfl, fun hshort => ?_, fun hlong => ?_,
      fun q hq => bitAt_storedInTurn_above s.blk _ _ hq, by simp⟩⟩
  · simp [Nat.div_eq_of_lt hshort, storedInTurn, lastSyndrome]
  · have hn : s.mem.bits.length / blockLength mode ≠ 0 := (Nat.div_pos hlong (blockLength_pos mode)).ne'
    have hpiece : (piece s.mem.bits (blockLength mode) (s.mem.bits.length / blockLength mode - 1)).length =
        blockLength mode := by
      refine length_piece ?_
      rw [Nat.sub_add_cancel (Nat.pos_of_ne_zero hn)]
      exact Nat.div_mul_le_self _ _
    have hsynd := lastSyndrome_of_ne_zero mode s.mem.bits hn
    refine ⟨hsynd, ?_⟩
    rw [State.block, blkRead_storedInTurn s.blk hn ((length_correctedBlock mode _).trans hpiece), hsynd, correctedBlock]

end Sys2Proof.Proofs
end

section
/-! The order of the faults (spec/60_exceptions.md R219): the operations check their fault conditions in that order, guard
after guard, so that what an operation answers is the first fault that applies. -/

namespace Sys2Proof.Proofs
open Sys2Proof.Machine

/-! The conditions of the faults (R211 to R216). -/

/-- `i` is one of the three operations with a mode operand, and `mode` is its operand (spec/30_encoding.md R82). -/
def HasModeOperand (i : Instr) (mode : Int) : Prop := i = .setmode mode ∨ i = .encode mode ∨ i = .decode mode

theorem HasModeOperand.unique {i : Instr} {mode mode' : Int} (h : HasModeOperand i mode) (h' : HasModeOperand i mode') :
    mode' = mode := by
  obtain rfl | rfl | rfl := h <;> simpa [HasModeOperand, eq_comm] using h'

theorem HasModeOperand.requiredPhase {i : Instr} {mode : Int} (h : HasModeOperand i mode) : requiredPhase i = none := by
  obtain rfl | rfl | rfl := h <;> rfl

theorem not_hasModeOperand {i : Instr} {p : Phase} (hreq : requiredPhase i = some p) (mode : Int) :
    ¬ HasModeOperand i mode := fun h => by simp [h.requiredPhase] at hreq

theorem faultCondition_invalidMode_iff {i : Instr} {mode : Int} (hi : HasModeOperand i mode) (s : State) :
    faultCondition i s .invalidMode ↔ mode < 1 :=
  ⟨fun ⟨_, hi', h⟩ => hi.unique hi' ▸ h, fun h => ⟨mode, hi, h⟩⟩

theorem faultCondition_modeUnsupported_iff {i : Instr} {mode : Int} (hi : HasModeOperand i mode) (s : State) :
    faultCondition i s .modeUnsupported ↔ (s.params.modeMax.val : Int) < mode :=
  ⟨fun ⟨_, hi', h⟩ => hi.unique hi' ▸ h, fun h => ⟨mode, hi, h⟩⟩

theorem not_sequenceError_of_hasModeOperand {i : Instr} {mode : Int} (hi : HasModeOperand i mode) (s : State) :
    ¬ faultCondition i s .sequenceError := fun ⟨_, hreq, _⟩ => not_hasModeOperand hreq mode hi

theorem not_underrun_of_hasModeOperand {i : Instr} {mode : Int} (hi : HasModeOperand i mode) (s : State) :
    ¬ faultCondition i s .underrun := by
  obtain rfl | rfl | rfl := hi <;> simp [faultCondition]

theorem faultCondition_sequenceError_iff {i : Instr} {p : Phase} (hreq : requiredPhase i = some p) (s : State) :
    faultCondition i s .sequenceError ↔ s.mode = 0 ∨ s.bstate ≠ p := by
  simp [faultCondition, hreq]

theorem faultCondition_encode_capacityExceeded_iff (mode : Mode) (s : State) :
    faultCondition (.encode (mode.val : Int)) s .capacityExceeded ↔
      ¬ fitsCap s.params (ceildiv (8 * s.mem.msg.length) mode.val * blockLength mode) := by
  constructor
  · rintro (⟨⟨⟩, -⟩ | ⟨⟨⟩, -⟩ | ⟨⟨⟩, -⟩ | ⟨mode', hmode, hcap⟩)
    obtain rfl : mode = mode' := Subtype.ext (by simpa using hmode)
    exact hcap
  · exact fun hcap => .inr (.inr (.inr ⟨mode, rfl, hcap⟩))

/-! The order of the faults (R219), place by place. -/

theorem Status.priority_injective : Function.Injective Status.priority := by
  intro c c'
  cases c <;> cases c' <;> simp [Status.priority]

/-- No status with a place before `n` in the order of R219 has its condition met. -/
def NoFaultBefore (n : Nat) (i : Instr) (s : State) : Prop := ∀ c, faultCondition i s c → n ≤ c.priority

/-- The next place: `c.priority + 1` is by definition the place of the status after `c`. -/
theorem noFaultBefore_succ_iff (c : Status) (i : Instr) (s : State) :
    NoFaultBefore (c.priority + 1) i s ↔ NoFaultBefore c.priority i s ∧ ¬ faultCondition i s c := by
  constructor
  · exact fun h => ⟨fun c' hc' => Nat.le_of_succ_le (h c' hc'), fun hc => Nat.not_succ_le_self _ (h c hc)⟩
  · rintro ⟨h, hc⟩ c' hc'
    refine Nat.lt_of_le_of_ne (h c' hc') fun heq => ?_
    exact hc (Status.priority_injective heq ▸ hc')

theorem noFaultBefore_invalidMode (i : Instr) (s : State) : NoFaultBefore Status.invalidMode.priority i s := by
  intro c hc
  cases c with
  | illegalCommand => exact hc.elim
  | _ => decide

theorem noFaultBefore_sequenceError_iff (i : Instr) (s : State) :
    NoFaultBefore Status.sequenceError.priority i s ↔
      ¬ faultCondition i s .invalidMode ∧ ¬ faultCondition i s .modeUnsupported := by
  have hunsupported := noFaultBefore_succ_iff .modeUnsupported i s
  have hinvalid := noFaultBefore_succ_iff .invalidMode i s
  exact hunsupported.trans (and_congr_left' (hinvalid.trans (and_iff_right (noFaultBefore_invalidMode i s))))

/-- The operand check passes exactly the modes from 1 to `MODE_MAX` (spec/30_encoding.md R83). -/
theorem noFaultBefore_sequenceError_iff_valid {i : Instr} {mode : Int} (hi : HasModeOperand i mode) (s : State) :
    NoFaultBefore Status.sequenceError.priority i s ↔ 1 ≤ mode ∧ mode ≤ s.params.modeMax.val := by
  rw [noFaultBefore_sequenceError_iff, faultCondition_invalidMode_iff hi, faultCondition_modeUnsupported_iff hi, not_lt,
    not_lt]

theorem noFaultBefore_sequenceError_of_requiredPhase {i : Instr} {p : Phase} (hreq : requiredPhase i = some p)
    (s : State) : NoFaultBefore Status.sequenceError.priority i s :=
  (noFaultBefore_sequenceError_iff i s).mpr
    ⟨fun ⟨mode, hi, _⟩ => not_hasModeOperand hreq mode hi, fun ⟨mode, hi, _⟩ => not_hasModeOperand hreq mode hi⟩

/-- The entry check of a micro-operation passes exactly the configured engine in the required phase (R214). -/
theorem noFaultBefore_underrun_iff {i : Instr} {p : Phase} (hreq : requiredPhase i = some p) (s : State) :
    NoFaultBefore Status.underrun.priority i s ↔ s.mode ≠ 0 ∧ s.bstate = p := by
  have hsequence := noFaultBefore_succ_iff .sequenceError i s
  rw [faultCondition_sequenceError_iff hreq, not_or, not_not] at hsequence
  exact hsequence.trans (and_iff_right (noFaultBefore_sequenceError_of_requiredPhase hreq s))

/-- No operation with a mode operand has a required phase or a cursor, so only the operand check comes before the
capacity check. -/
theorem noFaultBefore_capacityExceeded_iff_valid {i : Instr} {mode : Int} (hi : HasModeOperand i mode) (s : State) :
    NoFaultBefore Status.capacityExceeded.priority i s ↔ 1 ≤ mode ∧ mode ≤ s.params.modeMax.val := by
  have hunderrun := noFaultBefore_succ_iff .underrun i s
  have hsequence := noFaultBefore_succ_iff .sequenceError i s
  rw [← noFaultBefore_sequenceError_iff_valid hi s]
  calc NoFaultBefore Status.capacityExceeded.priority i s
    _ ↔ NoFaultBefore Status.underrun.priority i s :=
      hunderrun.trans (and_iff_left (not_underrun_of_hasModeOperand hi s))
    _ ↔ NoFaultBefore Status.sequenceError.priority i s :=
      hsequence.trans (and_iff_left (not_sequenceError_of_hasModeOperand hi s))

/-! What an operation answers. -/

/-- The answer `t` reports the first fault of `i` that applies in `s` and then changes `STATUS` alone, or completes and
leaves the phase of spec/10_state.md R30. -/
structure FirstFaultAnswer (i : Instr) (s t : State) : Prop where
  met : faultCondition i s t.status
  first : NoFaultBefore t.status.priority i s
  unchanged : t.status ≠ .ok → t = s.setStatus t.status
  phase : t.status = .ok → t.bstate = phaseAfter i

/-- Whatever `r` answers is such an answer of `i` in `s`. -/
structure ReportsFirstFault (i : Instr) (s : State) (r : Result) : Prop where
  answer : ∀ t, r = .next t → FirstFaultAnswer i s t

section
variable {i : Instr} {s : State}

theorem firstFaultAnswer_setStatus {c : Status} (hc : c ≠ .ok) (hmet : faultCondition i s c)
    (hfirst : NoFaultBefore c.priority i s) : FirstFaultAnswer i s (s.setStatus c) :=
  ⟨hmet, hfirst, fun _ => rfl, fun hok => absurd hok hc⟩

theorem reportsFirstFault_complete {s' : State} (hfirst : NoFaultBefore Status.ok.priority i s)
    (hphase : s'.bstate = phaseAfter i) : ReportsFirstFault i s (complete s') := by
  refine ⟨fun t ht => ?_⟩
  obtain rfl := (complete_eq_next s' t).mp ht
  exact ⟨trivial, hfirst, fun hne => absurd rfl hne, fun _ => hphase⟩

/-! Each guard raises its fault where the condition is met and leaves to the rest of the operation the states in which no
fault up to its own applies. -/

theorem reportsFirstFault_withMode {mode : Int} {k : Mode → Result} (hi : HasModeOperand i mode)
    (hk : ∀ m : Mode, mode = m.val → NoFaultBefore Status.capacityExceeded.priority i s → ReportsFirstFault i s (k m)) :
    ReportsFirstFault i s (withMode mode s k) := by
  refine ⟨fun t ht => ?_⟩
  obtain ⟨hinvalid, rfl⟩ | ⟨hvalid, hmax, rfl⟩ | ⟨m, hm, hmax, ht⟩ := withMode_cases ht
  · exact firstFaultAnswer_setStatus (by decide) ((faultCondition_invalidMode_iff hi s).mpr hinvalid)
      (noFaultBefore_invalidMode i s)
  · refine firstFaultAnswer_setStatus (by decide) ((faultCondition_modeUnsupported_iff hi s).mpr hmax) ?_
    refine (noFaultBefore_succ_iff .invalidMode i s).mpr ⟨noFaultBefore_invalidMode i s, ?_⟩
    rwa [faultCondition_invalidMode_iff hi, not_lt]
  · have hone := m.property
    exact (hk m hm ((noFaultBefore_capacityExceeded_iff_valid hi s).mpr (by omega))).answer t ht

theorem reportsFirstFault_inPhase {p : Phase} {k : Mode → Result} (hreq : requiredPhase i = some p)
    (hk : ∀ m : Mode, s.mode = m.val → s.bstate = p → NoFaultBefore Status.underrun.priority i s →
      ReportsFirstFault i s (k m)) :
    ReportsFirstFault i s (inPhase p s k) := by
  refine ⟨fun t ht => ?_⟩
  obtain ⟨hrefused, rfl⟩ | ⟨m, hm, hp, ht⟩ := inPhase_cases ht
  · exact firstFaultAnswer_setStatus (by decide) ((faultCondition_sequenceError_iff hreq s).mpr hrefused)
      (noFaultBefore_sequenceError_of_requiredPhase hreq s)
  · have hmode : s.mode ≠ 0 := hm ▸ Nat.ne_of_gt m.property
    exact (hk m hm hp ((noFaultBefore_underrun_iff hreq s).mpr ⟨hmode, hp⟩)).answer t ht

theorem reportsFirstFault_inSpace {cursor n len : Nat} {k : Result}
    (hcond : faultCondition i s .underrun ↔ len < cursor + n) (hfirst : NoFaultBefore Status.underrun.priority i s)
    (hk : NoFaultBefore Status.capacityExceeded.priority i s → ReportsFirstFault i s k) :
    ReportsFirstFault i s (inSpace cursor n len s k) := by
  refine ⟨fun t ht => ?_⟩
  obtain ⟨hend, rfl⟩ | ⟨hrun, ht⟩ := inSpace_cases ht
  · exact firstFaultAnswer_setStatus (by decide) (hcond.mpr hend) hfirst
  · exact (hk ((noFaultBefore_succ_iff .underrun i s).mpr ⟨hfirst, mt hcond.mp (Nat.not_lt.mpr hrun)⟩)).answer t ht

theorem reportsFirstFault_inCapacity {n : Nat} {k : Result}
    (hcond : faultCondition i s .capacityExceeded ↔ ¬ fitsCap s.params n)
    (hfirst : NoFaultBefore Status.capacityExceeded.priority i s)
    (hk : NoFaultBefore Status.ok.priority i s → ReportsFirstFault i s k) :
    ReportsFirstFault i s (inCapacity n s k) := by
  refine ⟨fun t ht => ?_⟩
  obtain ⟨hcap, rfl⟩ | ⟨hfits, ht⟩ := inCapacity_cases ht
  · exact firstFaultAnswer_setStatus (by decide) (hcond.mpr hcap) hfirst
  · exact (hk ((noFaultBefore_succ_iff .capacityExceeded i s).mpr ⟨hfirst, fun hc => hcond.mp hc hfits⟩)).answer t ht

/-- An operation that makes no space check passes over its place in the order. -/
theorem NoFaultBefore.skip_underrun (hfirst : NoFaultBefore Status.underrun.priority i s)
    (hnone : ¬ faultCondition i s .underrun) : NoFaultBefore Status.capacityExceeded.priority i s :=
  (noFaultBefore_succ_iff .underrun i s).mpr ⟨hfirst, hnone⟩

/-- An operation that makes no capacity check passes over its place in the order. -/
theorem NoFaultBefore.skip_capacityExceeded (hfirst : NoFaultBefore Status.capacityExceeded.priority i s)
    (hnone : ¬ faultCondition i s .capacityExceeded) : NoFaultBefore Status.ok.priority i s :=
  (noFaultBefore_succ_iff .capacityExceeded i s).mpr ⟨hfirst, hnone⟩

end

/-! The twelve operations: their guards stand in the order of R219. -/

/-- A micro-operation whose entry check is its only one. -/
theorem reportsFirstFault_entryOnly {i : Instr} {s : State} {p : Phase} {s' : Mode → State}
    (hreq : requiredPhase i = some p)
    (hnone : ¬ faultCondition i s .underrun ∧ ¬ faultCondition i s .capacityExceeded)
    (hphase : s.bstate = p → ∀ m, (s' m).bstate = phaseAfter i) :
    ReportsFirstFault i s (inPhase p s fun m => complete (s' m)) :=
  reportsFirstFault_inPhase hreq fun m _ hp hfirst =>
    reportsFirstFault_complete ((hfirst.skip_underrun hnone.1).skip_capacityExceeded hnone.2) (hphase hp m)

/-- A micro-operation that reads a run of a space and goes on to the phase of its table row. -/
theorem reportsFirstFault_reading {i : Instr} {s : State} {p : Phase} {cursor n len : Nat} {s' : State}
    (hreq : requiredPhase i = some p) (hcond : faultCondition i s .underrun ↔ len < cursor + n)
    (hnone : ¬ faultCondition i s .capacityExceeded) (hphase : s'.bstate = phaseAfter i) :
    ReportsFirstFault i s (inPhase p s fun _ => inSpace cursor n len s (complete s')) :=
  reportsFirstFault_inPhase hreq fun _ _ _ hfirst => reportsFirstFault_inSpace hcond hfirst fun hfirst =>
    reportsFirstFault_complete (hfirst.skip_capacityExceeded hnone) hphase

/-- A micro-operation that lengthens a space. -/
theorem reportsFirstFault_writing {i : Instr} {s : State} {p : Phase} {n : Mode → Nat} {s' : Mode → State}
    (hreq : requiredPhase i = some p) (hnone : ¬ faultCondition i s .underrun)
    (hcond : ∀ m : Mode, s.mode = m.val → (faultCondition i s .capacityExceeded ↔ ¬ fitsCap s.params (n m)))
    (hphase : s.bstate = p → ∀ m, (s' m).bstate = phaseAfter i) :
    ReportsFirstFault i s (inPhase p s fun m => inCapacity (n m) s (complete (s' m))) :=
  reportsFirstFault_inPhase hreq fun m hm hp hfirst =>
    reportsFirstFault_inCapacity (hcond m hm) (hfirst.skip_underrun hnone) fun hfirst =>
      reportsFirstFault_complete hfirst (hphase hp m)

theorem reportsFirstFault_exec (i : Instr) (s : State) : ReportsFirstFault i s (exec i s) := by
  unfold exec
  cases i with
  | setmode mode =>
    refine reportsFirstFault_withMode (.inl rfl) fun m _ hfirst => ?_
    exact reportsFirstFault_complete (hfirst.skip_capacityExceeded (by simp [faultCondition])) rfl
  | unpack =>
    refine reportsFirstFault_writing rfl (by simp [faultCondition]) (fun m hm => ?_) fun hp _ => hp
    simp [faultCondition, hm, blockCount]
  | ldchunk => exact reportsFirstFault_reading rfl (by simp [faultCondition]) (by simp [faultCondition]) rfl
  | synw => exact reportsFirstFault_entryOnly rfl (by simp [faultCondition]) fun _ _ => rfl
  | stblk =>
    exact reportsFirstFault_writing rfl (by simp [faultCondition]) (by simp [faultCondition]) fun _ _ => rfl
  | ldblk => exact reportsFirstFault_reading rfl (by simp [faultCondition]) (by simp [faultCondition]) rfl
  | synr => exact reportsFirstFault_entryOnly rfl (by simp [faultCondition]) fun _ _ => rfl
  | corr => exact reportsFirstFault_entryOnly rfl (by simp [faultCondition]) fun _ _ => rfl
  | strip =>
    exact reportsFirstFault_writing rfl (by simp [faultCondition]) (by simp [faultCondition]) fun _ _ => rfl
  | pack => exact reportsFirstFault_entryOnly rfl (by simp [faultCondition]) fun hp _ => hp
  | encode mode =>
    refine reportsFirstFault_withMode (.inr (.inl rfl)) fun m hm hfirst => ?_
    subst hm
    exact reportsFirstFault_inCapacity (faultCondition_encode_capacityExceeded_iff m s) hfirst fun hfirst =>
      reportsFirstFault_complete hfirst rfl
  | decode mode =>
    refine reportsFirstFault_withMode (.inr (.inr rfl)) fun m _ hfirst => ?_
    exact reportsFirstFault_complete (hfirst.skip_capacityExceeded (by simp [faultCondition])) rfl

/-- Settles O41: every operation reports the first fault that applies, and an illegal word is refused by the decoder. -/
theorem firstFaultOnlyStatus : Obligations.FirstFaultOnlyStatus := by
  refine ⟨fun i s t ht => ?_, fun _ _ _ _ hhost hdecode => step_of_decode_eq_error hdecode hhost⟩
  obtain ⟨hmet, hfirst, hunchanged, -⟩ := (reportsFirstFault_exec i s).answer t ht
  exact ⟨hmet, hfirst, hunchanged⟩

end Sys2Proof.Proofs
end

section
/-! When each status is reported (spec/60_exceptions.md R214 to R216): exactly where its condition is met and no status
before it in the order of R219 has its own met. -/

namespace Sys2Proof.Proofs
open Sys2Proof.Machine

theorem status_eq_iff {i : Instr} {s t : State} (ht : exec i s = .next t) (c : Status) :
    t.status = c ↔ faultCondition i s c ∧ NoFaultBefore c.priority i s := by
  obtain ⟨hmet, hfirst, -, -⟩ := (reportsFirstFault_exec i s).answer t ht
  constructor
  · rintro rfl
    exact ⟨hmet, hfirst⟩
  · exact fun ⟨hc, hbefore⟩ => Status.priority_injective (le_antisymm (hfirst c hc) (hbefore t.status hmet))

/-- Settles O42: only a micro-operation has a required phase, and none of them has a mode operand to fault before. -/
theorem phaseInterlock : Obligations.PhaseInterlock := by
  refine ⟨rfl, fun i s t ht => ?_⟩
  obtain ⟨-, -, hunchanged, hphase⟩ := (reportsFirstFault_exec i s).answer t ht
  refine ⟨?_, fun hstatus => ?_, hphase, fun hne => by rw [hunchanged hne, State.setStatus_bstate]⟩
  · rw [status_eq_iff ht]
    exact and_iff_left_of_imp fun ⟨_, hreq, _⟩ => noFaultBefore_sequenceError_of_requiredPhase hreq s
  · exact hstatus ▸ hunchanged (by simp [hstatus])

/-- Settles O43: `LDCHUNK` and `LDBLK` are micro-operations of phase `EMPTY`, and past their entry check `Underrun` comes
first. -/
theorem underrunExactly : Obligations.UnderrunExactly := by
  refine ⟨rfl, fun i s t ht => ?_⟩
  have hentry (hi : i = .ldchunk ∨ i = .ldblk) :
      NoFaultBefore Status.underrun.priority i s ↔ s.mode ≠ 0 ∧ s.bstate = .empty :=
    noFaultBefore_underrun_iff (by obtain rfl | rfl := hi <;> rfl) s
  rw [status_eq_iff ht, and_comm, ← and_assoc]
  exact and_congr_left fun hcond => hentry (hcond.imp And.left And.left)

/-! The four writers of R216: one that reaches its capacity check has passed its earlier checks. -/

theorem microOperation_reaches_capacityCheck_iff {i j : Instr} {p : Phase} {s : State} (hreq : requiredPhase j = some p)
    (hnone : ¬ faultCondition j s .underrun) (Q : Prop) :
    (i = j ∧ Q) ∧ NoFaultBefore Status.capacityExceeded.priority i s ↔ i = j ∧ s.mode ≠ 0 ∧ s.bstate = p ∧ Q := by
  have hentry : NoFaultBefore Status.capacityExceeded.priority j s ↔ s.mode ≠ 0 ∧ s.bstate = p :=
    (noFaultBefore_succ_iff .underrun j s).trans ((and_iff_left hnone).trans (noFaultBefore_underrun_iff hreq s))
  constructor
  · rintro ⟨⟨rfl, hQ⟩, hfirst⟩
    obtain ⟨hmode, hp⟩ := hentry.mp hfirst
    exact ⟨rfl, hmode, hp, hQ⟩
  · rintro ⟨rfl, hmode, hp, hQ⟩
    exact ⟨⟨rfl, hQ⟩, hentry.mpr ⟨hmode, hp⟩⟩

theorem encode_reaches_capacityCheck_iff {i : Instr} {s : State} (Q : Mode → Prop) :
    (∃ mode : Mode, i = .encode (mode.val : Int) ∧ Q mode) ∧ NoFaultBefore Status.capacityExceeded.priority i s ↔
      ∃ mode : Mode, i = .encode (mode.val : Int) ∧ mode.val ≤ s.params.modeMax.val ∧ Q mode := by
  have hentry (mode : Mode) : NoFaultBefore Status.capacityExceeded.priority (.encode (mode.val : Int)) s ↔
      mode.val ≤ s.params.modeMax.val := by
    have hone := mode.property
    rw [noFaultBefore_capacityExceeded_iff_valid (.inr (.inl rfl))]
    omega
  constructor
  · rintro ⟨⟨mode, rfl, hQ⟩, hfirst⟩
    exact ⟨mode, rfl, (hentry mode).mp hfirst, hQ⟩
  · rintro ⟨mode, rfl, hmax, hQ⟩
    exact ⟨⟨mode, rfl, hQ⟩, (hentry mode).mpr hmax⟩

theorem not_capacityExceeded_of_unbounded {s : State} (hcap : s.params.capBits = none) (i : Instr) :
    ¬ faultCondition i s .capacityExceeded := by
  simp [faultCondition, fitsCap, hcap]

/-- Settles O44: writer by writer, what the checks before the capacity check leave of its condition. -/
theorem capacityExactly : Obligations.CapacityExactly := by
  refine ⟨rfl, fun i s t ht => ⟨?_, fun hcap hstatus => ?_, ?_⟩⟩
  · rw [status_eq_iff ht, faultCondition, or_and_right, or_and_right, or_and_right]
    exact or_congr (microOperation_reaches_capacityCheck_iff rfl (by simp [faultCondition]) _)
      (or_congr (microOperation_reaches_capacityCheck_iff rfl (by simp [faultCondition]) _)
        (or_congr (microOperation_reaches_capacityCheck_iff rfl (by simp [faultCondition]) _)
          (encode_reaches_capacityCheck_iff _)))
  · exact not_capacityExceeded_of_unbounded hcap i ((status_eq_iff ht _).mp hstatus).1
  · rintro mode rfl hstatus
    have hmet := ((status_eq_iff ht _).mp hstatus).1
    simp [faultCondition] at hmet

end Sys2Proof.Proofs
end

section
/-! The command word (spec/30_encoding.md R80 to R88): encoder and decoder undo one another on the well-formed
instructions. -/

namespace Sys2Proof.Proofs
open Sys2Proof.Machine

/-! The mode operand (R82): the signed reading of the field and its two's complement. -/

theorem modeFits_iff (mode : Int) : modeFits mode = true ↔ -2 ^ 27 ≤ mode ∧ mode < 2 ^ 27 := by
  simp only [modeFits, Bool.and_eq_true, decide_eq_true_eq]
  omega

theorem sext28_eq_toInt (v : BitVec 28) : sext28 v = v.toInt := by
  rw [sext28, BitVec.toInt_eq_toNat_cond]
  split <;> split <;> omega

theorem immOfMode_sext28 (v : BitVec 28) : immOfMode (sext28 v) = v := by
  rw [sext28_eq_toInt, immOfMode, BitVec.ofInt_toInt]

theorem modeFits_sext28 (v : BitVec 28) : modeFits (sext28 v) = true := by
  rw [modeFits_iff, sext28_eq_toInt]
  exact ⟨BitVec.le_toInt v, BitVec.toInt_lt⟩

theorem sext28_immOfMode {mode : Int} (h : modeFits mode = true) : sext28 (immOfMode mode) = mode := by
  obtain ⟨hlow, hhigh⟩ := (modeFits_iff mode).mp h
  rw [sext28_eq_toInt, immOfMode, BitVec.toInt_ofInt_eq_self (by decide) hlow hhigh]

/-- Settles O1: the three operations with an operand by their words, whose field holds the operand; the others have
one word each. -/
theorem decodeInvertsEncode : Obligations.DecodeInvertsEncode := by
  intro i hi
  cases i with
  | setmode mode => exact (decode_setmode_word _).trans (by rw [sext28_immOfMode hi])
  | encode mode => exact (decode_encode_word _).trans (by rw [sext28_immOfMode hi])
  | decode mode => exact (decode_decode_word _).trans (by rw [sext28_immOfMode hi])
  | _ => rfl

/-! A word that decodes. -/

theorem opField_append_immField (w : Command) : opField w ++ immField w = w := by
  refine BitVec.eq_of_toNat_eq ?_
  rw [BitVec.toNat_append, toNat_opField, toNat_immField, ← Nat.shiftLeft_add_eq_or_of_lt (Nat.mod_lt _ (by decide)),
    Nat.shiftLeft_eq]
  exact Nat.div_add_mod' _ _

theorem word_of_opField {w : Command} {n : Nat} (hop : (opField w).toNat = n) :
    commandWord (BitVec.ofNat 4 n) (immField w) = w := by
  rw [← hop, BitVec.ofNat_toNat, BitVec.setWidth_eq, commandWord, opField_append_immField]

theorem noOperand_eq_ok {w : Command} {i j : Instr} (h : noOperand w i = .ok j) : i = j ∧ immField w = 0#28 := by
  unfold noOperand at h
  split at h
  · exact ⟨by simpa using h, ‹_›⟩
  · cases h

/-- A word of an operation without operand is its row's `match` (R81). -/
theorem wellFormed_and_encode_of_noOperand {w : Command} {i j : Instr} {n : Nat} (hop : (opField w).toNat = n)
    (hi : i.wellFormed = true ∧ encode i = commandWord (BitVec.ofNat 4 n) 0#28) (h : noOperand w i = .ok j) :
    j.wellFormed = true ∧ encode j = w := by
  obtain ⟨rfl, himm⟩ := noOperand_eq_ok h
  exact ⟨hi.1, hi.2.trans (himm ▸ word_of_opField hop)⟩

/-- A word of an operation with a mode operand holds that operand in its field (R82). -/
theorem wellFormed_and_encode_of_operand {w : Command} {f : Int → Instr} {j : Instr} {n : Nat}
    (hop : (opField w).toNat = n)
    (hf : ∀ mode, (f mode).wellFormed = modeFits mode ∧
      encode (f mode) = commandWord (BitVec.ofNat 4 n) (immOfMode mode))
    (h : Except.ok (ε := Illegal) (f (sext28 (immField w))) = .ok j) : j.wellFormed = true ∧ encode j = w := by
  obtain rfl := Except.ok.inj h
  obtain ⟨hfits, hword⟩ := hf (sext28 (immField w))
  exact ⟨hfits.trans (modeFits_sext28 _), by rw [hword, immOfMode_sext28, word_of_opField hop]⟩

/-- Settles O2: the branch of the decoder fixes `op` and with it the row, the field its operand. -/
theorem encodeInvertsDecode : Obligations.EncodeInvertsDecode := by
  intro w i h
  unfold decode at h
  split at h
  case h_1 hop | h_11 hop | h_12 hop => exact wellFormed_and_encode_of_operand hop (fun _ => ⟨rfl, rfl⟩) h
  case h_13 => cases h
  all_goals
    next hop => exact wellFormed_and_encode_of_noOperand hop ⟨rfl, rfl⟩ h

/-- Settles O4: the words are closed, so the decoder is run on them. -/
theorem tableWordsDecode : Obligations.TableWordsDecode := by
  exact ⟨rfl, rfl, rfl, rfl, rfl, rfl, rfl, rfl, rfl, rfl⟩

end Sys2Proof.Proofs
end

section
/-! The layout of a block (spec/40_layout.md R101 to R109): where the slots lie, and that the data positions are all
the others. -/

namespace Sys2Proof.Proofs
open Sys2Proof.Machine

/-! The slots (R108). -/

theorem two_le_parityCount (mode : Mode) : 2 ≤ parityCount mode := by
  have hmode := mode.property
  have hone : ¬ parityCount mode ≤ 1 := by rw [parityCount_le_iff]; omega
  omega

/-- An order of the block inserts its slot inside the list (R108 (d)). -/
theorem two_pow_sub_one_lt_of_lt_parityCount {mode : Mode} {k : Nat} (hk : k < parityCount mode) :
    2 ^ k - 1 < mode.val + k := by
  have hslot := (parityCount_spec mode).2 k hk
  have hpos := Nat.two_pow_pos k
  omega

theorem two_pow_pred_parityCount_lt_blockLength (mode : Mode) : 2 ^ (parityCount mode - 1) < blockLength mode := by
  have htwo := two_le_parityCount mode
  have hslot := (parityCount_spec mode).2 (parityCount mode - 1) (by omega)
  rw [blockLength]
  omega

theorem lt_parityCount_of_two_pow_le {mode : Mode} {k : Nat} (h : 2 ^ k ≤ blockLength mode) : k < parityCount mode :=
  (Nat.pow_lt_pow_iff_right one_lt_two).mp (h.trans_lt (blockLength_lt_two_pow mode))

/-- Settles O6: every clause from the count being the least that fits. -/
theorem layoutFacts : Obligations.LayoutFacts := by
  refine fun mode => ⟨parityCount_spec mode, two_le_parityCount mode, two_pow_pred_parityCount_lt_blockLength mode,
    Nat.le_sub_one_of_lt (blockLength_lt_two_pow mode), fun q _ hq => ⟨?_, ?_⟩,
    fun k hk => two_pow_sub_one_lt_of_lt_parityCount hk⟩
  · rintro ⟨k, rfl⟩
    exact ⟨k, lt_parityCount_of_two_pow_le hq, rfl⟩
  · rintro ⟨k, -, rfl⟩
    exact ⟨k, rfl⟩

/-! The data positions (R109). -/

theorem dataPos_lt_dataPos {i j : Nat} (h1 : 1 ≤ i) (h : i < j) : dataPos i < dataPos j := by
  have hj : 1 ≤ j := h1.trans h.le
  rw [dataPos_eq_blockLength ⟨i, h1⟩, dataPos_eq_blockLength ⟨j, hj⟩]
  exact Nat.add_lt_add_of_lt_of_le h (parityCount_mono h.le)

/-- A position between two powers of two, `2^t < q < 2^(t+1)`, has `t + 1` slots below it, and the others hold data.
-/
theorem exists_dataPos_eq {q : Nat} (h1 : 1 ≤ q) (hq : ¬ ∃ k, q = 2 ^ k) : ∃ i, 1 ≤ i ∧ dataPos i = q := by
  obtain ⟨t, ht⟩ : ∃ t, Nat.log 2 q = t := ⟨_, rfl⟩
  have hlow : 2 ^ t ≤ q := ht ▸ Nat.pow_log_le_self 2 (by omega)
  have hhigh : q < 2 ^ (t + 1) := ht ▸ Nat.lt_pow_succ_log_self one_lt_two q
  have hne : q ≠ 2 ^ t := fun h => hq ⟨t, h⟩
  have hexp : t < 2 ^ t := Nat.lt_two_pow_self
  have hi : 1 ≤ q - (t + 1) := by omega
  have hle : parityCount ⟨q - (t + 1), hi⟩ ≤ t + 1 := by rw [parityCount_le_iff]; dsimp only; omega
  have hgt : ¬ parityCount ⟨q - (t + 1), hi⟩ ≤ t := by rw [parityCount_le_iff]; dsimp only; omega
  refine ⟨q - (t + 1), hi, ?_⟩
  rw [dataPos_eq_blockLength ⟨q - (t + 1), hi⟩, blockLength]
  dsimp only
  omega

/-- Settles O7: the position of data bit `i` is the length of a block of `i` data bits, which no power of two is. -/
theorem dataPositionsEnumerate : Obligations.DataPositionsEnumerate :=
  ⟨fun _ h1 ⟨k, hk⟩ => dataPos_ne_two_pow h1 k hk, fun _ _ h1 h => dataPos_lt_dataPos h1 h,
    fun _ h1 hq => exists_dataPos_eq h1 hq, dataPos_eq_blockLength⟩

end Sys2Proof.Proofs
end

section
/-! The XOR trees of the syndrome engine (spec/41_syndrome_engine.md R124): the output of a tree is the XOR over its
leaves that are not forced to 0, in whatever shape and order. -/

namespace Sys2Proof.Proofs
open Sys2Proof.Machine

theorem xorAt_perm (B : List Bit) {ps qs : List Nat} (h : ps.Perm qs) : xorAt B ps = xorAt B qs := by
  rw [Bool.eq_iff_iff, xorAt_eq_true_iff, xorAt_eq_true_iff, h.countP_eq]

theorem output_eq_xorAt (blk : List Bit) (blen : Nat) (T : XorTree) :
    T.output blk blen = xorAt blk (T.leaves.filter (· ≤ blen)) := by
  induction T with
  | leaf q => by_cases hq : q ≤ blen <;> simp [XorTree.output, XorTree.leaves, hq]
  | gate l r hl hr => rw [XorTree.output, XorTree.leaves, List.filter_append, xorAt_append, hl, hr]

/-- The leaves that are not forced are the cover set of the block itself. -/
theorem filter_le_cover {s L L' : Nat} (h : L ≤ L') : (cover s L').filter (· ≤ L) = cover s L := by
  refine ((pairwise_cover s L').filter _).eq_of_mem_iff (pairwise_cover s L) fun q => ?_
  rw [List.mem_filter, mem_cover, mem_cover, decide_eq_true_iff]
  exact ⟨fun ⟨⟨h1, _, hbit⟩, hq⟩ => ⟨h1, hq, hbit⟩, fun ⟨h1, hq, hbit⟩ => ⟨⟨h1, hq.trans h, hbit⟩, hq⟩⟩

/-- Settles O10: the live leaves are the cover set of the block in some order, and an XOR does not depend on the
order. -/
theorem xorTreeShapeImmaterial : Obligations.XorTreeShapeImmaterial := by
  intro blk blen blmax s T hlen hleaves
  calc T.output blk blen
    _ = xorAt blk (T.leaves.filter (· ≤ blen)) := output_eq_xorAt blk blen T
    _ = xorAt blk ((cover s blmax).filter (· ≤ blen)) := xorAt_perm blk (hleaves.filter _)
    _ = xorAt blk (cover s blen) := by rw [filter_le_cover hlen]
    _ = sind (blkRead blk blen) s := (sind_blkRead blk blen s).symm

end Sys2Proof.Proofs
end

section
/-! Encode mode (spec/41_syndrome_engine.md R125 to R128): the parities of a block after its slots have been written.
-/

namespace Sys2Proof.Proofs
open Sys2Proof.Machine

theorem ext_bitAt {A B : List Bit} (hlen : A.length = B.length)
    (h : ∀ q, 1 ≤ q → q ≤ A.length → bitAt A q = bitAt B q) : A = B := by
  refine List.ext_getElem hlen fun j hA hB => ?_
  have hj := h (j + 1) (Nat.succ_pos j) hA
  simpa [bitAt, List.getD_eq_getElem?_getD, hA, hB] using hj

theorem length_foldl_writeSlot (orders : List Nat) (B : List Bit) : (orders.foldl writeSlot B).length = B.length := by
  induction orders generalizing B with
  | nil => rfl
  | cons k ks ih => rw [List.foldl_cons, ih, length_writeSlot]

/-! Any order of the orders gives the same block (R126). -/

theorem bitAt_writeParity_slot {P k : Nat} {B : List Bit} (hk : k < P) (hlen : 2 ^ k ≤ B.length) :
    bitAt (writeParity P B) (2 ^ k) = sind B k :=
  bitAt_foldl_writeSlot_slot List.nodup_range (List.mem_range.mpr hk) hlen

theorem bitAt_writeParity_other {P q : Nat} (B : List Bit) (h1 : 1 ≤ q) (h : ∀ k < P, q ≠ 2 ^ k) :
    bitAt (writeParity P B) q = bitAt B q :=
  bitAt_foldl_writeSlot_other B h1 fun k hk => h k (List.mem_range.mp hk)

theorem foldl_writeSlot_of_perm {P : Nat} (B : List Bit) {orders : List Nat} (h : orders.Perm (List.range P)) :
    orders.foldl writeSlot B = writeParity P B := by
  have hmem : ∀ k, k ∈ orders ↔ k < P := fun k => h.mem_iff.trans List.mem_range
  refine ext_bitAt (by rw [length_foldl_writeSlot, length_writeParity]) fun q h1 hq => ?_
  rw [length_foldl_writeSlot] at hq
  by_cases hslot : ∃ k < P, q = 2 ^ k
  · obtain ⟨k, hk, rfl⟩ := hslot
    rw [bitAt_foldl_writeSlot_slot (h.nodup_iff.mpr List.nodup_range) ((hmem k).mpr hk) hq,
      bitAt_writeParity_slot hk hq]
  · have hdata : ∀ k < P, q ≠ 2 ^ k := fun k hk heq => hslot ⟨k, hk, heq⟩
    rw [bitAt_foldl_writeSlot_other B h1 fun k hk => hdata k ((hmem k).mp hk), bitAt_writeParity_other B h1 hdata]

/-- Settles O11: cell by cell, the slots of the orders written hold the parities of the block as it was before. -/
theorem parityOrdersIndependent : Obligations.ParityOrdersIndependent :=
  fun P B => ⟨fun _ h => foldl_writeSlot_of_perm B h, length_writeParity P B,
    fun _ h1 hlen => ⟨bitAt_writeParity_other B h1, fun _ hk hq => hq ▸ bitAt_writeParity_slot hk (hq ▸ hlen)⟩⟩

/-! The parities afterwards (R127, R128). -/

theorem sindFrom_set (s p : Nat) {B : List Bit} {i : Nat} (hi : i < B.length) (v : Bit) :
    sindFrom s p (B.set i v) = (sindFrom s p B ^^ (covers s (p + i) && (B.getD i false ^^ v))) := by
  induction B generalizing p i with
  | nil => cases hi
  | cons b bs ih =>
    cases i with
    | zero => cases hc : covers s p <;> cases b <;> cases v <;> simp [sindFrom, hc]
    | succ i =>
      rw [List.set_cons_succ, sindFrom, ih (p + 1) (Nat.lt_of_succ_lt_succ hi), sindFrom, List.getD_cons_succ,
        Bool.xor_assoc, Nat.add_right_comm, Nat.add_assoc]

theorem bitAt_of_length_lt {B : List Bit} {q : Nat} (h : B.length < q) : bitAt B q = false :=
  List.getD_eq_default _ _ (by omega)

/-- Writing the slot of an order exchanges the parity of the order with what the slot held: only this slot is a power
of two in the cover set, and the parity counts it once. -/
theorem sind_writeSlot_same (B : List Bit) (k : Nat) : sind (writeSlot B k) k = bitAt B (2 ^ k) := by
  have hpos := Nat.two_pow_pos k
  obtain hin | hout := Nat.lt_or_ge (2 ^ k - 1) B.length
  · have hpos' : 1 + (2 ^ k - 1) = 2 ^ k := by omega
    rw [writeSlot, setAt, parityPos, sind, sindFrom_set k 1 hin, hpos', covers, Nat.testBit_two_pow_self, ← sind,
      ← bitAt, Bool.true_and, Bool.xor_comm (bitAt B _), ← Bool.xor_assoc, Bool.xor_self, Bool.false_xor]
  · have hlen : B.length < 2 ^ k := by omega
    rw [sind_of_length_lt (by rwa [length_writeSlot]), bitAt_of_length_lt hlen]

theorem sind_foldl_writeSlot_other (B : List Bit) {orders : List Nat} {k : Nat} (hk : k ∉ orders) :
    sind (orders.foldl writeSlot B) k = sind B k := by
  induction orders generalizing B with
  | nil => rfl
  | cons j js ih =>
    obtain ⟨hj, hjs⟩ := not_or.mp (mt List.mem_cons.mpr hk)
    rw [List.foldl_cons, ih _ hjs, sind_writeSlot_other B (Ne.symm hj)]

theorem sind_writeParity {P k : Nat} (B : List Bit) (hk : k < P) : sind (writeParity P B) k = bitAt B (2 ^ k) := by
  have horder : (k :: (List.range P).erase k).Perm (List.range P) :=
    (List.perm_cons_erase (List.mem_range.mpr hk)).symm
  rw [← foldl_writeSlot_of_perm B horder, List.foldl_cons,
    sind_foldl_writeSlot_other _ (List.nodup_range.not_mem_erase), sind_writeSlot_same]

/-- Settles O12: after encode mode the parity of an order is what its slot held, so a second application puts it back.
-/
theorem writeParityTwiceRestores : Obligations.WriteParityTwiceRestores := by
  refine fun P B => ⟨ext_bitAt (by simp only [length_writeParity]) fun q h1 hq => ?_,
    fun hzero k hk => (sind_writeParity B hk).trans (hzero k hk)⟩
  rw [length_writeParity] at hq
  by_cases hslot : ∃ k < P, q = 2 ^ k
  · obtain ⟨k, hk, rfl⟩ := hslot
    rw [bitAt_writeParity_slot hk hq, sind_writeParity B hk]
  · have hdata : ∀ k < P, q ≠ 2 ^ k := fun k hk heq => hslot ⟨k, hk, heq⟩
    rw [bitAt_writeParity_other _ h1 hdata, bitAt_writeParity_other _ h1 hdata]

/-! The syndrome of an encoded block (R130, R131). -/

/-- Settles O13: the digits of both numbers are the parities of the orders. -/
theorem syndromeIsXorOfPositions : Obligations.SyndromeIsXorOfPositions :=
  fun P B hB => ⟨syndrome_eq_onesXor hB, syndrome_lt_two_pow P B, fun k hk => by simp [testBit_syndrome, hk]⟩

theorem syndrome_eq_zero_iff (P : Nat) (B : List Bit) : syndrome P B = 0 ↔ ∀ k < P, sind B k = false := by
  constructor
  · intro h k hk
    have hdigit := testBit_syndrome P B k
    rw [h] at hdigit
    simpa [hk] using hdigit.symm
  · intro h
    refine Nat.eq_of_testBit_eq fun k => ?_
    rw [testBit_syndrome, Nat.zero_testBit, Bool.and_eq_false_imp]
    exact fun hk => h k (by simpa using hk)

theorem syndrome_writeParity {P : Nat} {B : List Bit} (h : ∀ k < P, bitAt B (2 ^ k) = false) :
    syndrome P (writeParity P B) = 0 :=
  (syndrome_eq_zero_iff P _).mpr fun k hk => (sind_writeParity B hk).trans (h k hk)

/-- Settles O14: encoding makes every parity even, every inverted position adds its number to the XOR, and position 0
does not exist. -/
theorem errorsShiftSyndrome : Obligations.ErrorsShiftSyndrome := by
  refine ⟨fun _ _ _ h => syndrome_writeParity h, fun _ _ _ hB hE => syndrome_invertAll hB hE, fun a b ha hb hab => ?_⟩
  have hnot : xorOf [a, b] ∉ [a, b] := xorOf_not_mem_of_length_eq_two (by simp [ha, hb]) rfl
  rw [List.mem_pair, not_or] at hnot
  exact ⟨by simpa [xorOf] using hab, hnot⟩

end Sys2Proof.Proofs
end

section
/-! What the correction policy counts (spec/42_selector_inverter.md R144), and the errors that spare the data (R142).
-/

namespace Sys2Proof.Proofs
open Sys2Proof.Machine

theorem correct_count (B : List Bit) (syn : Nat) : (correct B syn).2 = if B.length < syn then 1 else 0 := by
  obtain rfl | hpos := Nat.eq_zero_or_pos syn
  · simp [correct_zero]
  obtain hout | hin := Nat.lt_or_ge B.length syn
  · rw [correct_outside hout, if_pos hout]
  · rw [correct_inside hpos hin, if_neg (Nat.not_lt_of_ge hin)]

/-! Shortened modes: the first number that is no position is the XOR of the highest slot and another position. -/

theorem two_pow_xor_eq_add {p b : Nat} (hb : b < 2 ^ p) : 2 ^ p ^^^ b = 2 ^ p + b := by
  rw [← Nat.div_add_mod (2 ^ p ^^^ b) (2 ^ p), Nat.xor_div_two_pow, Nat.xor_mod_two_pow,
    Nat.div_self (Nat.two_pow_pos p), Nat.div_eq_of_lt hb, Nat.mod_self, Nat.mod_eq_of_lt hb, Nat.xor_zero,
    Nat.zero_xor, Nat.mul_one]

theorem exists_xor_eq_blockLength_succ {mode : Mode} (h : blockLength mode < 2 ^ parityCount mode - 1) :
    ∃ b, 1 ≤ b ∧ b ≤ blockLength mode ∧ 2 ^ (parityCount mode - 1) ^^^ b = blockLength mode + 1 := by
  have hlow := two_pow_pred_parityCount_lt_blockLength mode
  have hpow : 2 ^ parityCount mode = 2 ^ (parityCount mode - 1) + 2 ^ (parityCount mode - 1) := by
    rw [← Nat.two_mul, ← pow_succ', Nat.sub_add_cancel (parityCount_pos mode)]
  refine ⟨blockLength mode + 1 - 2 ^ (parityCount mode - 1), by omega, by omega, ?_⟩
  rw [two_pow_xor_eq_add (by omega)]
  omega

/-- Settles O17: two errors give the XOR of their positions, below `2^P`, and the policy counts what lies above the
block. -/
theorem detectionOnlyShortened : Obligations.DetectionOnlyShortened := by
  intro mode B hlen hcode
  have hsyn : ∀ a b, 1 ≤ a → a ≤ blockLength mode → 1 ≤ b → b ≤ blockLength mode →
      syndrome (parityCount mode) (invertAll B [a, b]) = a ^^^ b := by
    intro a b ha ha' hb hb'
    rw [syndrome_invertAll (hlen ▸ blockLength_lt_two_pow mode) (by simp [ha, ha', hb, hb', hlen]), hcode, Nat.zero_xor]
    simp [xorOf]
  constructor
  · rintro ⟨a, b, ha, ha', hb, hb', -, hcount⟩
    rw [hsyn a b ha ha' hb hb', correct_count, length_invertAll, hlen] at hcount
    have hfull := blockLength_lt_two_pow mode
    have hxor : a ^^^ b < 2 ^ parityCount mode := Nat.xor_lt_two_pow (ha'.trans_lt hfull) (hb'.trans_lt hfull)
    split at hcount <;> omega
  · intro hshort
    obtain ⟨b, hb, hb', hxor⟩ := exists_xor_eq_blockLength_succ hshort
    have ha' := (two_pow_pred_parityCount_lt_blockLength mode).le
    refine ⟨_, b, Nat.one_le_two_pow, ha', hb, hb', fun hab => ?_, ?_⟩
    · rw [hab, Nat.xor_self] at hxor
      omega
    · rw [hsyn _ b Nat.one_le_two_pow ha' hb hb', correct_count, length_invertAll, hlen, hxor,
        if_pos (Nat.lt_succ_self _)]

/-! Perfect modes: every syndrome is 0 or a position. -/

theorem decodeBlock_count_of_perfect {mode : Mode} (h : blockLength mode + 1 = 2 ^ parityCount mode) {B : List Bit}
    (hB : B.length = blockLength mode) : (decodeBlock mode B).2 = 0 := by
  have hsyn := syndrome_lt_two_pow (parityCount mode) B
  rw [decodeBlock_eq, correct_count, if_neg (by omega)]

/-- The pieces of a stream are whole blocks. -/
theorem length_piece_of_lt {bits : List Bit} {L k : Nat} (hk : k < bits.length / L) : (piece bits L k).length = L :=
  length_piece ((Nat.mul_le_mul_right L hk).trans (Nat.div_mul_le_self _ L))

/-- Settles O18: the count is the sum over the blocks, and no block is counted. -/
theorem perfectModesNeverCount : Obligations.PerfectModesNeverCount := by
  refine fun s mode hmode hperfect => ⟨_, exec_decode_of_valid s hmode, rfl, ?_⟩
  refine List.sum_eq_zero fun u hu => ?_
  obtain ⟨_, hblock, rfl⟩ := List.mem_map.mp hu
  obtain ⟨k, hk, rfl⟩ := List.mem_map.mp hblock
  exact decodeBlock_count_of_perfect hperfect (length_piece_of_lt (List.mem_range.mp hk))

/-! Errors in the parity slots. -/

/-- Settles O20: no data position is a power of two. -/
theorem slotErrorsSpareData : Obligations.SlotErrorsSpareData := fun _ k B =>
  List.map_congr_left fun i _ => bitAt_invertAt_other B Nat.one_le_two_pow (one_le_dataPos (Nat.succ_pos i))
    (dataPos_ne_two_pow (Nat.succ_pos i) k).symm

end Sys2Proof.Proofs
end

section
/-! What an operation can answer: a fault, which changes `STATUS` alone, or the state that it leaves when it
completes. The operations in both cases answer a next state (spec/43_block_codec.md R179). -/

namespace Sys2Proof.Proofs
open Sys2Proof.Machine

/-- Operation `i` completes in `s` and leaves `t`: the checks it has passed and everything it writes. -/
inductive Completes : Instr → State → State → Prop
  /-- R110. -/
  | setmode {s : State} (m : Mode) (hmode : m.val ≤ s.params.modeMax.val) :
    Completes (.setmode m.val) s { s with
      mode := m.val, pcount := parityCount m, blen := blockLength m, synd := 0, uerr := 0, prd := 0, brd := 0,
      bstate := .empty, mem := s.mem.setPay [], status := .ok }
  /-- R170. -/
  | unpack {s : State} (m : Mode) (hmode : s.mode = m.val) (hphase : s.bstate = .empty)
    (hcap : fitsCap s.params (blockCount s.mem.msg m * m.val)) :
    Completes .unpack s { s with
      mem := ⟨s.mem.msg, payload s.mem.msg m, []⟩, prd := 0, brd := 0, status := .ok }
  /-- R171. -/
  | ldchunk {s : State} (m : Mode) (hmode : s.mode = m.val) (hphase : s.bstate = .empty)
    (hrun : s.prd + s.mode ≤ s.mem.pay.length) :
    Completes .ldchunk s { s with
      blk := blkStore s.blk s.blen (reserve s.pcount (memRead s.mem.pay s.prd s.mode)), prd := s.prd + s.mode,
      bstate := .reserved, status := .ok }
  /-- R132. -/
  | synw {s : State} (m : Mode) (hmode : s.mode = m.val) (hphase : s.bstate = .reserved) :
    Completes .synw s { s with
      blk := blkStore s.blk s.blen (writeParity s.pcount s.block), bstate := .encoded, status := .ok }
  /-- R172. -/
  | stblk {s : State} (m : Mode) (hmode : s.mode = m.val) (hphase : s.bstate = .encoded)
    (hcap : fitsCap s.params (s.mem.bits.length + s.blen)) :
    Completes .stblk s { s with mem := s.mem.appendBits s.blen s.block, bstate := .empty, status := .ok }
  /-- R173. -/
  | ldblk {s : State} (m : Mode) (hmode : s.mode = m.val) (hphase : s.bstate = .empty)
    (hrun : s.brd + s.blen ≤ s.mem.bits.length) :
    Completes .ldblk s { s with
      blk := blkStore s.blk s.blen (memRead s.mem.bits s.brd s.blen), brd := s.brd + s.blen, bstate := .received,
      status := .ok }
  /-- R133. -/
  | synr {s : State} (m : Mode) (hmode : s.mode = m.val) (hphase : s.bstate = .received) :
    Completes .synr s { s with synd := syndrome s.pcount s.block, bstate := .checked, status := .ok }
  /-- R146. -/
  | corr {s : State} (m : Mode) (hmode : s.mode = m.val) (hphase : s.bstate = .checked) :
    Completes .corr s { s with
      blk := (correctBlk s.blk s.blen s.synd s.uerr).1, uerr := (correctBlk s.blk s.blen s.synd s.uerr).2,
      bstate := .corrected, status := .ok }
  /-- R174. -/
  | strip {s : State} (m : Mode) (hmode : s.mode = m.val) (hphase : s.bstate = .corrected)
    (hcap : fitsCap s.params (s.mem.pay.length + s.mode)) :
    Completes .strip s { s with
      mem := s.mem.appendPay s.mode (strip m s.block), bstate := .empty, status := .ok }
  /-- R175. -/
  | pack {s : State} (m : Mode) (hmode : s.mode = m.val) (hphase : s.bstate = .empty) :
    Completes .pack s { s with mem := s.mem.setMsg (bytesOfBits s.mem.pay), status := .ok }
  /-- R176. -/
  | encode {s : State} (m : Mode) (hmode : m.val ≤ s.params.modeMax.val)
    (hcap : fitsCap s.params (blockCount s.mem.msg m * blockLength m)) :
    Completes (.encode m.val) s { s with
      mode := m.val, pcount := parityCount m, blen := blockLength m, synd := 0, uerr := 0, brd := 0,
      mem := ⟨s.mem.msg, payload s.mem.msg m, encodeStream s.mem.msg m⟩,
      blk := storedInTurn s.blk (blockLength m) (fun k => encodeBlock m (piece (payload s.mem.msg m) m.val k))
        (blockCount s.mem.msg m),
      prd := blockCount s.mem.msg m * m.val, bstate := .empty, status := .ok }
  /-- R177. -/
  | decode {s : State} (m : Mode) (hmode : m.val ≤ s.params.modeMax.val) :
    Completes (.decode m.val) s { s with
      mode := m.val, pcount := parityCount m, blen := blockLength m,
      synd := lastSyndrome m s.mem.bits (s.mem.bits.length / blockLength m), uerr := (decodeStream s.mem.bits m).2,
      prd := 0,
      blk := storedInTurn s.blk (blockLength m) (fun k => correctedBlock m (piece s.mem.bits (blockLength m) k))
        (s.mem.bits.length / blockLength m),
      brd := s.mem.bits.length / blockLength m * blockLength m,
      mem := ⟨(decodeStream s.mem.bits m).1, (decodedBlocks s.mem.bits m).flatMap Prod.fst, s.mem.bits⟩,
      bstate := .empty, status := .ok }

/-- The three classes of a mode operand (spec/30_encoding.md R83). -/
theorem modeOperand_cases (p : Params) (mode : Int) :
    mode < 1 ∨ (1 ≤ mode ∧ (p.modeMax.val : Int) < mode) ∨ ∃ m : Mode, mode = m.val ∧ m.val ≤ p.modeMax.val := by
  by_cases hlow : mode < 1
  · exact .inl hlow
  by_cases hhigh : (p.modeMax.val : Int) < mode
  · exact .inr (.inl ⟨by omega, hhigh⟩)
  · exact .inr (.inr ⟨⟨mode.toNat, by omega⟩, by dsimp only; omega, by dsimp only; omega⟩)

/-- `r` answers a next state, `s` with another status or one with `Q`. -/
def Answers (s : State) (Q : State → Prop) (r : Result) : Prop :=
  ∃ t, r = .next t ∧ ((∃ c, t = s.setStatus c) ∨ Q t)

section
variable {s : State} {Q : State → Prop}

theorem answers_fault (c : Status) : Answers s Q (.next (s.setStatus c)) := ⟨_, rfl, .inl ⟨c, rfl⟩⟩

theorem answers_next {t : State} (h : Q t) : Answers s Q (.next t) := ⟨t, rfl, .inr h⟩

/-! Each guard answers a fault or leaves the answer to the rest of the operation. -/

theorem answers_withMode {mode : Int} {k : Mode → Result}
    (h : ∀ m : Mode, mode = m.val → m.val ≤ s.params.modeMax.val → Answers s Q (withMode m.val s k)) :
    Answers s Q (withMode mode s k) := by
  obtain hlow | ⟨hlow, hhigh⟩ | ⟨m, rfl, hmode⟩ := modeOperand_cases s.params mode
  · exact withMode_invalid hlow ▸ answers_fault _
  · exact withMode_unsupported hlow hhigh ▸ answers_fault _
  · exact h m rfl hmode

theorem answers_inPhase {p : Phase} {k : Mode → Result}
    (h : ∀ m : Mode, s.mode = m.val → s.bstate = p → Answers s Q (k m)) : Answers s Q (inPhase p s k) := by
  by_cases hguard : s.mode = 0 ∨ s.bstate ≠ p
  · exact inPhase_refuses hguard ▸ answers_fault _
  · obtain ⟨hmode, hphase⟩ := not_or.mp hguard
    rw [inPhase_of_ne_zero hmode (not_not.mp hphase)]
    exact h _ rfl (not_not.mp hphase)

theorem answers_inSpace {cursor n len : Nat} {k : Result} (h : cursor + n ≤ len → Answers s Q k) :
    Answers s Q (inSpace cursor n len s k) := by
  obtain hend | hrun := Nat.lt_or_ge len (cursor + n)
  · exact inSpace_refuses hend ▸ answers_fault _
  · exact inSpace_of (s := s) hrun ▸ h hrun

theorem answers_inCapacity {n : Nat} {k : Result} (h : fitsCap s.params n → Answers s Q k) :
    Answers s Q (inCapacity n s k) := by
  by_cases hcap : fitsCap s.params n
  · exact inCapacity_of (s := s) hcap ▸ h hcap
  · exact inCapacity_refuses hcap ▸ answers_fault _

end

theorem answers_exec (i : Instr) (s : State) : Answers s (Completes i s) (exec i s) := by
  unfold exec
  cases i with
  | setmode mode =>
    refine answers_withMode fun m hm hmode => ?_
    subst hm
    exact withMode_of hmode ▸ answers_next (.setmode m hmode)
  | unpack =>
    refine answers_inPhase fun m hm hp => ?_
    exact answers_inCapacity fun hcap => answers_next (.unpack m hm hp hcap)
  | ldchunk => exact answers_inPhase fun m hm hp => answers_inSpace fun hrun => answers_next (.ldchunk m hm hp hrun)
  | synw => exact answers_inPhase fun m hm hp => answers_next (.synw m hm hp)
  | stblk => exact answers_inPhase fun m hm hp => answers_inCapacity fun hcap => answers_next (.stblk m hm hp hcap)
  | ldblk => exact answers_inPhase fun m hm hp => answers_inSpace fun hrun => answers_next (.ldblk m hm hp hrun)
  | synr => exact answers_inPhase fun m hm hp => answers_next (.synr m hm hp)
  | corr => exact answers_inPhase fun m hm hp => answers_next (.corr m hm hp)
  | strip =>
    refine answers_inPhase fun m hm hp => ?_
    exact answers_inCapacity fun hcap => answers_next (.strip m hm hp hcap)
  | pack => exact answers_inPhase fun m hm hp => answers_next (.pack m hm hp)
  | encode mode =>
    refine answers_withMode fun m hm hmode => ?_
    subst hm
    change Answers s _ (exec (.encode m.val) s)
    rw [exec_encode_of_valid s hmode]
    exact answers_inCapacity fun hcap => answers_next (.encode m hmode hcap)
  | decode mode =>
    refine answers_withMode fun m hm hmode => ?_
    subst hm
    change Answers s _ (exec (.decode m.val) s)
    rw [exec_decode_of_valid s hmode]
    exact answers_next (.decode m hmode)

theorem next_unique {r : Result} {t t' : State} (h' : r = .next t') (h : r = .next t) : t' = t :=
  Host.Outcome.next.inj (h'.symm.trans h)

/-- What an operation does: it faults or it completes. -/
theorem exec_cases {i : Instr} {s t : State} (h : exec i s = .next t) :
    (∃ c, t = s.setStatus c) ∨ Completes i s t := by
  obtain ⟨t', ht', hcases⟩ := answers_exec i s
  obtain rfl := next_unique ht' h
  exact hcases

/-- Settles O45: a fault writes `STATUS` alone, and an operation that completes writes what its rule says. -/
theorem onlyListedWriters : Obligations.OnlyListedWriters := by
  intro i s t h
  obtain ⟨c, rfl⟩ | hdone := exec_cases h
  · simp
  · cases hdone <;> simp

end Sys2Proof.Proofs
end

section
/-! The step: the host's next move, carried out at the state with that move taken off. -/

namespace Sys2Proof.Proofs
open Sys2Proof.Machine

section
variable {s : State} {rest : List HostMove}

/-! One equation per move. -/

theorem step_of_no_move (h : s.host = []) : step s = .next s := by
  rw [step, nextMove_none s h]
  rfl

theorem step_of_issue {w : Command} {i : Instr} (h : s.host = .issue w :: rest) (hw : decode w = .ok i) :
    step s = exec i (s.setHost rest) := by
  rw [step, nextMove_cons s _ rest h]
  simp only [hw]

theorem step_of_writeMsg {m : List Byte} (h : s.host = .writeMsg m :: rest) :
    step s = hostWriteMsg m (s.setHost rest) := by
  rw [step, nextMove_cons s _ rest h]

theorem step_of_writeBits {b : List Bit} (h : s.host = .writeBits b :: rest) :
    step s = hostWriteBits b (s.setHost rest) := by
  rw [step, nextMove_cons s _ rest h]

theorem step_of_reset (h : s.host = .reset :: rest) : step s = .next (State.powerOn s.params rest) := by
  rw [step, nextMove_cons s _ rest h]
  rfl

/-! The host's writes within `CAP_BITS` and past it (log 7). -/

theorem hostWriteMsg_of_fits {m : List Byte} (h : fitsCap s.params (8 * m.length)) :
    hostWriteMsg m s = .next (s.setMem (s.mem.setMsg m)) := by
  rw [hostWriteMsg, (fitsCap_iff _ _).mp h]
  rfl

theorem hostWriteMsg_of_not_fits {m : List Byte} (h : ¬ fitsCap s.params (8 * m.length)) :
    hostWriteMsg m s = .fault .hostWritePastCapacity :=
  if_pos (by simpa [fitsCap_iff] using h)

theorem hostWriteBits_of_fits {b : List Bit} (h : fitsCap s.params b.length) :
    hostWriteBits b s = .next (s.setMem (s.mem.setBits b)) := by
  rw [hostWriteBits, (fitsCap_iff _ _).mp h]
  rfl

theorem hostWriteBits_of_not_fits {b : List Bit} (h : ¬ fitsCap s.params b.length) :
    hostWriteBits b s = .fault .hostWritePastCapacity :=
  if_pos (by simpa [fitsCap_iff] using h)

end

theorem decode_of_decodeTableWord {nbits w : Nat} {i : Instr} (h : decodeTableWord nbits w = some i) :
    decode (BitVec.ofNat 32 (w % 2 ^ nbits)) = .ok i := by
  rw [decodeTableWord] at h
  cases hw : decode (BitVec.ofNat 32 (w % 2 ^ nbits)) with
  | error e => simp [hw, Except.toOption] at h
  | ok j => simpa [hw, Except.toOption] using h

/-- Settles O47: the word placed as the next move is taken off again, which leaves the state as it was. -/
theorem stepRunsDecodedInstruction : Obligations.StepRunsDecodedInstruction :=
  ⟨fun _ _ _ _ hhost hw => step_of_issue hhost hw, fun s _ _ _ h =>
    step_of_issue (rest := s.host) rfl (decode_of_decodeTableWord h)⟩

/-- Settles O48: one equation per move. -/
theorem hostMovesBetweenOperations : Obligations.HostMovesBetweenOperations :=
  ⟨fun _ => step_of_no_move,
    fun _ _ _ hhost hfits => (step_of_writeMsg hhost).trans (hostWriteMsg_of_fits hfits),
    fun _ _ _ hhost hfits => (step_of_writeBits hhost).trans (hostWriteBits_of_fits hfits),
    fun _ _ hhost => ⟨_, step_of_reset hhost, rfl, rfl, rfl, rfl, rfl, rfl, rfl, rfl, rfl, rfl, rfl, rfl, rfl, rfl⟩⟩

/-! What stops a step. -/

/-- The host's next move writes more than `CAP_BITS` bits. -/
def OversizedWrite (s : State) : Prop :=
  ∃ rest, (∃ m, s.host = .writeMsg m :: rest ∧ ¬ fitsCap s.params (8 * m.length)) ∨
    (∃ b, s.host = .writeBits b :: rest ∧ ¬ fitsCap s.params b.length)

theorem step_of_oversizedWrite {s : State} (h : OversizedWrite s) : step s = .fault .hostWritePastCapacity := by
  obtain ⟨rest, ⟨m, hhost, hcap⟩ | ⟨b, hhost, hcap⟩⟩ := h
  · exact (step_of_writeMsg hhost).trans (hostWriteMsg_of_not_fits hcap)
  · exact (step_of_writeBits hhost).trans (hostWriteBits_of_not_fits hcap)

theorem exec_total (i : Instr) (s : State) : ∃ t, exec i s = .next t :=
  (answers_exec i s).imp fun _ h => h.1

theorem oversizedWrite_or_step_next (s : State) : OversizedWrite s ∨ ∃ t, step s = .next t := by
  cases hhost : s.host with
  | nil => exact .inr ⟨s, step_of_no_move hhost⟩
  | cons move rest =>
    cases move with
    | issue w =>
      cases hw : decode w with
      | error e => exact .inr ⟨_, step_of_decode_eq_error hw hhost⟩
      | ok i => exact .inr (step_of_issue hhost hw ▸ exec_total i _)
    | writeMsg m =>
      by_cases hcap : fitsCap s.params (8 * m.length)
      · exact .inr ⟨_, (step_of_writeMsg hhost).trans (hostWriteMsg_of_fits hcap)⟩
      · exact .inl ⟨rest, .inl ⟨m, hhost, hcap⟩⟩
    | writeBits b =>
      by_cases hcap : fitsCap s.params b.length
      · exact .inr ⟨_, (step_of_writeBits hhost).trans (hostWriteBits_of_fits hcap)⟩
      · exact .inl ⟨rest, .inr ⟨b, hhost, hcap⟩⟩
    | reset => exact .inr ⟨_, step_of_reset hhost⟩

/-- Settles O49: every operation answers a next state, and so does every move but an oversized write. -/
theorem nothingElseStops : Obligations.NothingElseStops := by
  refine ⟨exec_total, fun s r hr => ?_, fun s f => ⟨fun hf => ?_, fun h => step_of_oversizedWrite h⟩⟩
  · obtain h | ⟨t, ht⟩ := oversizedWrite_or_step_next s
    · simp [step_of_oversizedWrite h] at hr
    · simp [ht] at hr
  · obtain h | ⟨t, ht⟩ := oversizedWrite_or_step_next s
    · exact h
    · simp [ht] at hf

/-- A micro-operation without configuration or outside its phase faults with `SequenceError` (R214). -/
theorem faultsWith_sequenceError {i : Instr} {s : State} {p : Phase} (hreq : requiredPhase i = some p)
    (h : s.mode = 0 ∨ s.bstate ≠ p) : faultsWith i s .sequenceError := by
  obtain ⟨t, ht⟩ := exec_total i s
  obtain ⟨hstatus, honly, -⟩ := phaseInterlock.2 i s t ht
  rw [faultsWith, ht, honly (hstatus.mpr ⟨p, hreq, h⟩)]

/-- Settles O52: there is no configuration after reset. -/
theorem resetRefusesMicroOperations : Obligations.ResetRefusesMicroOperations :=
  fun _ _ => ⟨⟨rfl, rfl, rfl, rfl, rfl, rfl, rfl, rfl, rfl, rfl⟩, fun _ _ hreq =>
    faultsWith_sequenceError hreq (.inl rfl)⟩

/-! HAM's calls (spec/30_encoding.md R90). -/

theorem modeFits_of_supported {p : Params} {mode : Mode} (hp : p.wf = true) (hmode : mode.val ≤ p.modeMax.val) :
    modeFits (mode.val : Int) = true := by
  have hmax : p.modeMax.val ≤ 134217727 := by simpa [Params.wf] using hp
  rw [modeFits_iff]
  omega

theorem step_of_issue_wellFormed {s : State} {rest : List HostMove} {i : Instr} (hi : i.wellFormed = true)
    (h : s.host = .issue (encode i) :: rest) : step s = exec i (s.setHost rest) :=
  step_of_issue h (decodeInvertsEncode i hi)

theorem step_encode_of_valid {s : State} {mode : Mode} {rest : List HostMove} (hp : s.params.wf = true)
    (hmode : mode.val ≤ s.params.modeMax.val) (hhost : s.host = .issue (encode (.encode (mode.val : Int))) :: rest)
    (hcap : fitsCap s.params (ceildiv (8 * s.mem.msg.length) mode.val * blockLength mode)) :
    ∃ t, step s = .next t ∧ t.status = .ok ∧ t.mem.bits = encodeStream s.mem.msg mode ∧ t.host = rest :=
  ⟨_, (step_of_issue_wellFormed (i := .encode mode.val) (modeFits_of_supported hp hmode) hhost).trans
    ((exec_encode_of_valid (s.setHost rest) hmode).trans (inCapacity_of (s := s.setHost rest) hcap)), rfl, rfl, rfl⟩

theorem step_decode_of_valid {s : State} {mode : Mode} {rest : List HostMove} (hp : s.params.wf = true)
    (hmode : mode.val ≤ s.params.modeMax.val) (hhost : s.host = .issue (encode (.decode (mode.val : Int))) :: rest) :
    ∃ t, step s = .next t ∧ t.status = .ok ∧ (t.mem.msg, t.uerr) = decodeStream s.mem.bits mode ∧ t.host = rest :=
  ⟨_, (step_of_issue_wellFormed (i := .decode mode.val) (modeFits_of_supported hp hmode) hhost).trans
    (exec_decode_of_valid (s.setHost rest) hmode), rfl, rfl, rfl⟩

/-- Settles O53: the write is within its limit, the word decodes to the operation, and the operation leaves the stream
function's value in the output space. -/
theorem hamCallsByHostMoves : Obligations.HamCallsByHostMoves := by
  refine ⟨fun s m mode rest hmode hp hhost hmsg hcap => ?_, fun s b mode rest hmode hp hhost hbits => ?_,
    fun s mode rest hfits hlow hhost => ?_⟩
  · have hwrite := (step_of_writeMsg hhost).trans (hostWriteMsg_of_fits hmsg)
    obtain ⟨u, hu⟩ := step_encode_of_valid (s := (s.setHost (.issue (encode (.encode (mode.val : Int))) :: rest)).setMem
      (s.mem.setMsg m)) hp hmode rfl hcap
    exact ⟨_, u, hwrite, hu⟩
  · have hwrite := (step_of_writeBits hhost).trans (hostWriteBits_of_fits hbits)
    obtain ⟨u, hu⟩ := step_decode_of_valid (s := (s.setHost (.issue (encode (.decode (mode.val : Int))) :: rest)).setMem
      (s.mem.setBits b)) hp hmode rfl
    exact ⟨_, u, hwrite, hu⟩
  · obtain hhost | hhost := hhost
    · exact (step_of_issue_wellFormed (i := .encode mode) hfits hhost).trans (withMode_invalid hlow)
    · exact (step_of_issue_wellFormed (i := .decode mode) hfits hhost).trans (withMode_invalid hlow)

end Sys2Proof.Proofs
end

section
/-! The invariant of the machine (`State.Inv`): reset has it, and every operation, every host write and every reset
keeps it. -/

namespace Sys2Proof.Proofs
open Sys2Proof.Machine

theorem inv_powerOn {p : Params} (moves : List HostMove) (hp : p.wf = true) : (State.powerOn p moves).Inv where
  params := hp
  config := .inl ⟨rfl, rfl, rfl, rfl, rfl⟩
  synd := Nat.one_pos
  blk := rfl
  blkCells := Nat.zero_le _
  pay := dvd_rfl
  prd := ⟨dvd_rfl, le_rfl⟩
  brd := dvd_rfl
  reserved := nofun
  encoded := nofun
  checked := nofun
  corrected := nofun
  mem := reset_memory_wf p moves

/-- Settles O51: every clause about the registers and spaces holds of their values after reset. -/
theorem resetHasInvariant : Obligations.ResetHasInvariant :=
  ⟨fun _ moves hp => inv_powerOn moves hp, inv_powerOn [] (by decide)⟩

section
variable {s : State}

/-! What no clause speaks of. -/

theorem inv_setStatus (hs : s.Inv) (c : Status) : (s.setStatus c).Inv := { hs with }

theorem inv_setHost (hs : s.Inv) (moves : List HostMove) : (s.setHost moves).Inv := { hs with }

/-! The host's writes (spec/20_memory.md R62). -/

theorem inv_hostWriteMsg (hs : s.Inv) {v : List Byte} (hv : exceedsCap s.params (8 * v.length) = false) :
    (s.setMem (s.mem.setMsg v)).Inv :=
  { hs with mem := setMsg_keeps_wf hs.mem hv }

theorem inv_hostWriteBits (hs : s.Inv) {v : List Bit} (hv : exceedsCap s.params v.length = false) :
    (s.setMem (s.mem.setBits v)).Inv :=
  { hs with mem := setBits_keeps_wf hs.mem hv }

/-! The configuration. -/

theorem configured_of_inv (hs : s.Inv) {m : Mode} (hm : s.mode = m.val) :
    ∃ h : 1 ≤ s.mode, s.mode ≤ s.params.modeMax.val ∧ s.pcount = parityCount ⟨s.mode, h⟩ ∧
      s.blen = blockLength ⟨s.mode, h⟩ := by
  obtain ⟨hzero, -⟩ | hconfigured := hs.config
  · have hone := m.property
    omega
  · exact hconfigured

theorem layout_eq_of_inv (hs : s.Inv) {m : Mode} (hm : s.mode = m.val) :
    m.val ≤ s.params.modeMax.val ∧ s.pcount = parityCount m ∧ s.blen = blockLength m := by
  obtain ⟨hone, hlayout⟩ := configured_of_inv hs hm
  obtain rfl : ⟨s.mode, hone⟩ = m := Subtype.ext hm
  exact hlayout

theorem blockLength_le_blMax {m mMax : Mode} (h : m.val ≤ mMax.val) : blockLength m ≤ blMax mMax :=
  Nat.add_le_add h (parityCount_mono h)

theorem blen_le_blMax_of_inv (hs : s.Inv) {m : Mode} (hm : s.mode = m.val) : s.blen ≤ blMax s.params.modeMax := by
  obtain ⟨hmax, -, hblen⟩ := layout_eq_of_inv hs hm
  exact hblen ▸ blockLength_le_blMax hmax

end

theorem fitsCap_mono {p : Params} {a b : Nat} (h : a ≤ b) (hb : fitsCap p b) : fitsCap p a :=
  fun c hc => h.trans (hb c hc)

/-! The spaces that `PACK`, `ENCODE` and `DECODE` write are within `CAP_BITS`. -/

theorem eight_mul_length_bytesOfBits_le (b : List Bit) : 8 * (bytesOfBits b).length ≤ b.length := by
  rw [length_bytesOfBits]
  exact Nat.mul_div_le _ _

theorem length_flatMap_of_forall_length {ι α : Type} {l : List ι} {f : ι → List α} {n : Nat}
    (h : ∀ x ∈ l, (f x).length = n) : (l.flatMap f).length = l.length * n := by
  rw [List.length_flatMap, List.map_congr_left h, List.map_const', List.sum_replicate, smul_eq_mul]

theorem length_firstDecoded (mode : Mode) (bits : List Bit) (n : Nat) :
    ((firstDecoded mode bits n).flatMap Prod.fst).length = n * mode.val := by
  rw [length_flatMap_of_forall_length (n := mode.val), firstDecoded, List.length_map, List.length_range]
  intro r hr
  obtain ⟨k, -, rfl⟩ := List.mem_map.mp hr
  exact length_strip mode _

theorem length_decodedPayload (bits : List Bit) (mode : Mode) :
    ((decodedBlocks bits mode).flatMap Prod.fst).length = bits.length / blockLength mode * mode.val :=
  length_firstDecoded mode bits _

theorem length_encodeStream (m : List Byte) (mode : Mode) :
    (encodeStream m mode).length = blockCount m mode * blockLength mode := by
  rw [encodeStream_eq, length_flatMap_of_forall_length (n := blockLength mode), List.length_range]
  intro k hk
  refine length_encodeBlock (length_piece ?_)
  rw [length_payload]
  exact Nat.mul_le_mul_right _ (List.mem_range.mp hk)

theorem mode_le_blockLength (mode : Mode) : mode.val ≤ blockLength mode := Nat.le_add_right _ _

theorem mode_dvd_length_payload (m : List Byte) (mode : Mode) : mode.val ∣ (payload m mode).length :=
  length_payload m mode ▸ dvd_mul_left _ _

theorem mode_dvd_length_decodedPayload (bits : List Bit) (mode : Mode) :
    mode.val ∣ ((decodedBlocks bits mode).flatMap Prod.fst).length :=
  length_decodedPayload bits mode ▸ dvd_mul_left _ _

theorem length_payload_le_stream (m : List Byte) (mode : Mode) :
    (payload m mode).length ≤ blockCount m mode * blockLength mode := by
  rw [length_payload]
  exact Nat.mul_le_mul_left _ (mode_le_blockLength mode)

theorem length_decodedPayload_le (bits : List Bit) (mode : Mode) :
    ((decodedBlocks bits mode).flatMap Prod.fst).length ≤ bits.length := by
  rw [length_decodedPayload]
  exact (Nat.mul_le_mul_left _ (mode_le_blockLength mode)).trans (Nat.div_mul_le_self _ _)

/-! The register file that `ENCODE` and `DECODE` leave. -/

theorem blkWf_storedInTurn {blk : List Bit} (h : blkWf blk = true) (L : Nat) (block : Nat → List Bit) (n : Nat) :
    blkWf (storedInTurn blk L block n) = true := by
  cases n with
  | zero => exact h
  | succ n => exact blkStore_wf blk L _

theorem length_storedInTurn_le {blk : List Bit} {L b : Nat} (hL : L ≤ b) (hblk : blk.length ≤ b)
    (block : Nat → List Bit) (n : Nat) : (storedInTurn blk L block n).length ≤ b := by
  cases n with
  | zero => exact hblk
  | succ n => exact length_blkStore_le blk L b _ hL hblk

theorem length_correctBlk_le {blk : List Bit} {L b : Nat} (hL : L ≤ b) (hblk : blk.length ≤ b) (syn u : Nat) :
    (correctBlk blk L syn u).1.length ≤ b := by
  obtain rfl | hpos := Nat.eq_zero_or_pos syn
  · rwa [correctBlk_zero]
  obtain hout | hin := Nat.lt_or_ge L syn
  · rwa [correctBlk_outside hout]
  · rw [correctBlk_inside hpos hin]
    exact length_blkStore_le blk L b _ hL hblk

theorem lastSyndrome_lt (mode : Mode) (bits : List Bit) (n : Nat) :
    lastSyndrome mode bits n < 2 ^ parityCount mode := by
  cases n with
  | zero => exact Nat.two_pow_pos _
  | succ n => exact syndrome_lt_two_pow _ _

/-! The block that `SYNW` and `CORR` leave is a codeword (spec/41_syndrome_engine.md R131). -/

theorem syndrome_after_synw {s : State} (hs : s.Inv) (hphase : s.bstate = .reserved) :
    syndrome s.pcount (blkRead (blkStore s.blk s.blen (writeParity s.pcount s.block)) s.blen) = 0 := by
  rw [blkRead_blkStore_of_length _ (by rw [length_writeParity, State.block, length_blkRead])]
  refine syndrome_writeParity fun k hk => ?_
  rw [State.block, bitAt_blkRead _ _ _ Nat.one_le_two_pow (slot_le_blen_of_inv hs hk)]
  exact hs.reserved hphase k hk

theorem syndrome_after_corr {s : State} (hs : s.Inv) (hphase : s.bstate = .checked) (hsynd : s.synd ≤ s.blen) :
    syndrome s.pcount (blkRead (correctBlk s.blk s.blen s.synd s.uerr).1 s.blen) = 0 := by
  have hsyn : s.synd = syndrome s.pcount s.block := hs.checked hphase
  obtain hzero | hpos := Nat.eq_zero_or_pos s.synd
  · rw [hzero, correctBlk_zero]
    exact hsyn.symm.trans hzero
  · have hlen : s.block.length = s.blen := length_blkRead _ _
    rw [correctBlk_inside hpos hsynd]
    change syndrome s.pcount (blkRead (blkStore s.blk s.blen (invertAt s.block s.synd)) s.blen) = 0
    rw [blkRead_blkStore_of_length _ ((length_invertAt _ _).trans hlen),
      syndrome_invertAt (length_block_lt_of_inv hs) hpos (hsynd.trans hlen.ge), ← hsyn, Nat.xor_self]

/-! The operations. -/

theorem inv_of_completes {i : Instr} {s t : State} (hs : s.Inv) (h : Completes i s t) : t.Inv := by
  obtain ⟨hmsg, hpay, hbits⟩ := (memory_wf_iff s.params s.mem).mp hs.mem
  have hconfig {m : Mode} (hm : s.mode = m.val) := configured_of_inv hs hm
  cases h with
  | setmode m hmode => exact
    { hs with
      config := .inr ⟨m.property, hmode, rfl, rfl⟩
      synd := Nat.two_pow_pos _
      pay := dvd_zero _
      prd := ⟨dvd_zero _, le_rfl⟩
      brd := dvd_zero _
      reserved := nofun, encoded := nofun, checked := nofun, corrected := nofun
      mem := setPay_keeps_wf hs.mem (exceedsCap_mono (Nat.zero_le _) hmsg) }
  | unpack m hm hp hcap => exact
    { hs with
      pay := hm ▸ mode_dvd_length_payload _ m
      prd := ⟨dvd_zero _, Nat.zero_le _⟩
      brd := dvd_zero _
      mem := (memory_wf_iff _ _).mpr ⟨hmsg, (fitsCap_iff _ _).mp (length_payload s.mem.msg m ▸ hcap),
        exceedsCap_mono (Nat.zero_le _) hmsg⟩ }
  | ldchunk m hm hp hrun => exact
    { hs with
      config := .inr (hconfig hm)
      blk := blkStore_wf _ _ _
      blkCells := length_blkStore_le _ _ _ _ (blen_le_blMax_of_inv hs hm) hs.blkCells
      prd := ⟨dvd_add hs.prd.1 dvd_rfl, hrun⟩
      reserved := fun _ k hk => (bitAt_blkStore_inside _ _ Nat.one_le_two_pow (slot_le_blen_of_inv hs hk)).trans
        (bitAt_reserve_slot _ hk)
      encoded := nofun, checked := nofun, corrected := nofun }
  | synw m hm hp => exact
    { hs with
      config := .inr (hconfig hm)
      blk := blkStore_wf _ _ _
      blkCells := length_blkStore_le _ _ _ _ (blen_le_blMax_of_inv hs hm) hs.blkCells
      encoded := fun _ => syndrome_after_synw hs hp
      reserved := nofun, checked := nofun, corrected := nofun }
  | stblk m hm hp hcap => exact
    { hs with
      config := .inr (hconfig hm)
      mem := appendBits_keeps_wf hs.mem
        ((fitsCap_iff _ _).mp (by simpa only [State.block, length_blkRead] using hcap))
      reserved := nofun, encoded := nofun, checked := nofun, corrected := nofun }
  | ldblk m hm hp hrun => exact
    { hs with
      config := .inr (hconfig hm)
      blk := blkStore_wf _ _ _
      blkCells := length_blkStore_le _ _ _ _ (blen_le_blMax_of_inv hs hm) hs.blkCells
      brd := dvd_add hs.brd dvd_rfl
      reserved := nofun, encoded := nofun, checked := nofun, corrected := nofun }
  | synr m hm hp => exact
    { hs with
      config := .inr (hconfig hm)
      synd := syndrome_lt_two_pow _ _
      checked := fun _ => rfl
      reserved := nofun, encoded := nofun, corrected := nofun }
  | corr m hm hp => exact
    { hs with
      config := .inr (hconfig hm)
      blk := correctBlk_wf _ _ _ hs.blk
      blkCells := length_correctBlk_le (blen_le_blMax_of_inv hs hm) hs.blkCells _ _
      corrected := fun _ => syndrome_after_corr hs hp
      reserved := nofun, encoded := nofun, checked := nofun }
  | strip m hm hp hcap => exact
    { hs with
      config := .inr (hconfig hm)
      pay := by simpa [hm] using hs.pay
      prd := ⟨hs.prd.1, hs.prd.2.trans (by simp)⟩
      mem := appendPay_keeps_wf hs.mem ((fitsCap_iff _ _).mp (by simpa [hm] using hcap))
      reserved := nofun, encoded := nofun, checked := nofun, corrected := nofun }
  | pack m hm hp => exact
    { hs with mem := setMsg_keeps_wf hs.mem (exceedsCap_mono (eight_mul_length_bytesOfBits_le _) hpay) }
  | encode m hmode hcap => exact
    { hs with
      config := .inr ⟨m.property, hmode, rfl, rfl⟩
      synd := Nat.two_pow_pos _
      blk := blkWf_storedInTurn hs.blk _ _ _
      blkCells := length_storedInTurn_le (blockLength_le_blMax hmode) hs.blkCells _ _
      pay := mode_dvd_length_payload _ m
      prd := ⟨dvd_mul_left _ _, (length_payload _ m).ge⟩
      brd := dvd_zero _
      reserved := nofun, encoded := nofun, checked := nofun, corrected := nofun
      mem := (memory_wf_iff _ _).mpr ⟨hmsg, (fitsCap_iff _ _).mp (fitsCap_mono (length_payload_le_stream _ m) hcap),
        (fitsCap_iff _ _).mp (length_encodeStream _ m ▸ hcap)⟩ }
  | decode m hmode => exact
    { hs with
      config := .inr ⟨m.property, hmode, rfl, rfl⟩
      synd := lastSyndrome_lt _ _ _
      blk := blkWf_storedInTurn hs.blk _ _ _
      blkCells := length_storedInTurn_le (blockLength_le_blMax hmode) hs.blkCells _ _
      pay := mode_dvd_length_decodedPayload _ m
      prd := ⟨dvd_zero _, Nat.zero_le _⟩
      brd := dvd_mul_left _ _
      reserved := nofun, encoded := nofun, checked := nofun, corrected := nofun
      mem := (memory_wf_iff _ _).mpr
        ⟨exceedsCap_mono ((eight_mul_length_bytesOfBits_le _).trans (length_decodedPayload_le _ m)) hbits,
          exceedsCap_mono (length_decodedPayload_le _ m) hbits, hbits⟩ }

/-! The step. -/

theorem inv_of_exec {i : Instr} {s t : State} (hs : s.Inv) (h : exec i s = .next t) : t.Inv := by
  obtain ⟨c, rfl⟩ | hdone := exec_cases h
  · exact inv_setStatus hs c
  · exact inv_of_completes hs hdone

/-- Settles O50: a step is the host's next move, at the state with that move taken off. -/
theorem stepKeepsInvariant : Obligations.StepKeepsInvariant := by
  intro s t hs h
  cases hhost : s.host with
  | nil => exact next_unique (step_of_no_move hhost) h ▸ hs
  | cons move rest =>
    have hrest := inv_setHost hs rest
    cases move with
    | issue w =>
      cases hw : decode w with
      | error e => exact next_unique (step_of_decode_eq_error hw hhost) h ▸ inv_setStatus hrest .illegalCommand
      | ok i => exact inv_of_exec hrest ((step_of_issue hhost hw).symm.trans h)
    | writeMsg m =>
      by_cases hcap : fitsCap s.params (8 * m.length)
      · exact next_unique ((step_of_writeMsg hhost).trans (hostWriteMsg_of_fits hcap)) h ▸
          inv_hostWriteMsg hrest ((fitsCap_iff _ _).mp hcap)
      · simp [step_of_oversizedWrite ⟨rest, .inl ⟨m, hhost, hcap⟩⟩] at h
    | writeBits b =>
      by_cases hcap : fitsCap s.params b.length
      · exact next_unique ((step_of_writeBits hhost).trans (hostWriteBits_of_fits hcap)) h ▸
          inv_hostWriteBits hrest ((fitsCap_iff _ _).mp hcap)
      · simp [step_of_oversizedWrite ⟨rest, .inr ⟨b, hhost, hcap⟩⟩] at h
    | reset => exact next_unique (step_of_reset hhost) h ▸ inv_powerOn rest hs.params

end Sys2Proof.Proofs
end

section
/-! The pieces of a stream (spec/43_block_codec.md R157, R158, R160): block `k` of a stream put together from blocks,
and the blocks of a stream with a tail. -/

namespace Sys2Proof.Proofs
open Sys2Proof.Machine

theorem getElem?_piece {a : List Bit} {L k j : Nat} (hj : j < L) : (piece a L k)[j]? = a[k * L + j]? := by
  rw [piece, getElem?_memRead, if_pos hj]

theorem piece_append_left {a b : List Bit} {L k : Nat} (h : (k + 1) * L ≤ a.length) :
    piece (a ++ b) L k = piece a L k := by
  rw [Nat.succ_mul] at h
  rw [piece, memRead, List.drop_append_of_le_length (by omega), List.take_append_of_le_length (by simp; omega)]
  rfl

theorem piece_append_right {a b : List Bit} {L k : Nat} (ha : a.length = k * L) (hb : b.length = L) :
    piece (a ++ b) L k = b := by
  rw [piece, memRead, List.drop_left' ha, List.take_of_length_le hb.le]

theorem length_flatMap_range {f : Nat → List Bit} {L n : Nat} (hf : ∀ j < n, (f j).length = L) :
    ((List.range n).flatMap f).length = n * L := by
  rw [length_flatMap_of_forall_length fun j hj => hf j (List.mem_range.mp hj), List.length_range]

theorem piece_flatMap_range {f : Nat → List Bit} {L n k : Nat} (hf : ∀ j < n, (f j).length = L) (hk : k < n) :
    piece ((List.range n).flatMap f) L k = f k := by
  induction n with
  | zero => cases hk
  | succ n ih =>
    have hbefore : ∀ j < n, (f j).length = L := fun j hj => hf j (Nat.lt_succ_of_lt hj)
    rw [List.range_succ, List.flatMap_append, List.flatMap_singleton]
    obtain hlt | rfl := Nat.lt_succ_iff_lt_or_eq.mp hk
    · rw [piece_append_left (length_flatMap_range hbefore ▸ Nat.mul_le_mul_right L hlt), ih hbefore hlt]
    · exact piece_append_right (length_flatMap_range hbefore) (hf k hk)

theorem flatMap_piece (a : List Bit) (w n : Nat) : (List.range n).flatMap (piece a w) = a.take (n * w) := by
  induction n with
  | zero => simp
  | succ n ih => rw [List.range_succ, List.flatMap_append, List.flatMap_singleton, ih, Nat.succ_mul, List.take_add]; rfl

/-! The encoded stream, block by block (spec/20_memory.md R64). -/

theorem length_piece_payload {m : List Byte} {mode : Mode} {k : Nat} (hk : k < blockCount m mode) :
    (piece (payload m mode) mode.val k).length = mode.val :=
  length_piece (length_payload m mode ▸ Nat.mul_le_mul_right _ hk)

theorem piece_encodeStream {m : List Byte} {mode : Mode} {k : Nat} (hk : k < blockCount m mode) :
    piece (encodeStream m mode) (blockLength mode) k = encodeBlock mode (piece (payload m mode) mode.val k) := by
  rw [encodeStream_eq]
  exact piece_flatMap_range (fun j hj => length_encodeBlock (length_piece_payload hj)) hk

theorem getElem?_encodeStream {m : List Byte} {mode : Mode} {k q : Nat} (hk : k < blockCount m mode) (h1 : 1 ≤ q)
    (h2 : q ≤ blockLength mode) :
    (encodeStream m mode)[k * blockLength mode + q - 1]? =
      some (bitAt (encodeBlock mode (piece (payload m mode) mode.val k)) q) := by
  have hrun : k * blockLength mode + blockLength mode ≤ (encodeStream m mode).length := by
    rw [length_encodeStream, ← Nat.succ_mul]
    exact Nat.mul_le_mul_right _ hk
  rw [getElem?_eq_some_bitAt_memRead h1 h2 hrun, ← piece, piece_encodeStream hk]

theorem bitAt_encodeBlock_dataPos {mode : Mode} {c : List Bit} (hc : c.length = mode.val) {i : Nat} (h1 : 1 ≤ i)
    (h2 : i ≤ mode.val) : bitAt (encodeBlock mode c) (dataPos i) = bitAt c i := by
  rw [encodeBlock, bitAt_writeParity_other _ (one_le_dataPos h1) fun k _ => dataPos_ne_two_pow h1 k,
    bitAt_reserve_dataPos hc h1 h2]

theorem slot_le_blockLength {mode : Mode} {k : Nat} (hk : k < parityCount mode) : 2 ^ k ≤ blockLength mode :=
  (Nat.pow_le_pow_right two_pos (Nat.le_sub_one_of_lt hk)).trans (two_pow_pred_parityCount_lt_blockLength mode).le

theorem bitAt_encodeBlock_slot {mode : Mode} {c : List Bit} (hc : c.length = mode.val) {k : Nat}
    (hk : k < parityCount mode) : bitAt (encodeBlock mode c) (2 ^ k) = sind (reserve (parityCount mode) c) k :=
  bitAt_writeParity_slot hk (length_reserve hc le_rfl ▸ slot_le_blockLength hk)

/-- Settles O21: block `k` of the stream is the encoded chunk `k`, whose cells are its data bits and its parities. -/
theorem encodedStreamLayout : Obligations.EncodedStreamLayout := by
  refine fun m mode => ⟨length_encodeStream m mode, fun k hk => ⟨fun i h1 h2 => ?_, fun s hs => ?_⟩⟩
  · have hrun : k * mode.val + mode.val ≤ (payload m mode).length := by
      rw [length_payload, ← Nat.succ_mul]
      exact Nat.mul_le_mul_right _ hk
    rw [getElem?_encodeStream hk (one_le_dataPos h1) (dataPos_le_blockLength h1 h2),
      bitAt_encodeBlock_dataPos (length_piece_payload hk) h1 h2, getElem?_eq_some_bitAt_memRead h1 h2 hrun, piece]
  · rw [getElem?_encodeStream hk Nat.one_le_two_pow (slot_le_blockLength hs),
      bitAt_encodeBlock_slot (length_piece_payload hk) hs]

/-! The tail of a received stream (spec/20_memory.md R59). -/

theorem decodedBlocks_append_tail {mode : Mode} {bits tail : List Bit} (htail : tail.length < blockLength mode)
    (hbits : blockLength mode ∣ bits.length) : decodedBlocks (bits ++ tail) mode = decodedBlocks bits mode := by
  rw [decodedBlocks, List.length_append, Nat.add_div_of_dvd_right hbits, Nat.div_eq_of_lt htail, Nat.add_zero]
  refine List.map_congr_left fun k hk => ?_
  have hwhole := Nat.mul_le_mul_right (blockLength mode) (List.mem_range.mp hk)
  rw [piece_append_left (hwhole.trans (Nat.div_mul_le_self _ _))]

/-- Settles O22: the tail adds no whole block, and the whole blocks are read as before. -/
theorem decodeDropsTail : Obligations.DecodeDropsTail := by
  refine fun mode bits tail htail => ⟨fun hbits => ?_, ?_⟩
  · rw [decodeStream, decodedBlocks_append_tail htail hbits]
    rfl
  · rw [decodeStream, decodedBlocks, Nat.div_eq_of_lt htail]
    rfl

end Sys2Proof.Proofs
end

section
/-! What `DECODE` recovers of an encoded stream (spec/43_block_codec.md R159, spec/45_host_collaborators.md R194,
R195): the whole payload, when every block was received with one bit inverted or with none. -/

namespace Sys2Proof.Proofs
open Sys2Proof.Machine

/-! One block. -/

theorem syndrome_encodeBlock (mode : Mode) (c : List Bit) : syndrome (parityCount mode) (encodeBlock mode c) = 0 :=
  syndrome_writeParity fun _ hk => bitAt_reserve_slot c hk

theorem strip_encodeBlock {mode : Mode} {c : List Bit} (hc : c.length = mode.val) :
    strip mode (encodeBlock mode c) = c :=
  (strip_writeParity mode _ _).trans (strip_reserve hc)

theorem decodeBlock_of_codeword {mode : Mode} {B : List Bit} (hcode : syndrome (parityCount mode) B = 0) :
    decodeBlock mode B = (strip mode B, 0) := by
  rw [decodeBlock_eq, correctedBlock, hcode, correct_zero]

theorem decodeBlock_invertAt {mode : Mode} {B : List Bit} {q : Nat} (hB : B.length = blockLength mode)
    (hcode : syndrome (parityCount mode) B = 0) (h1 : 1 ≤ q) (h2 : q ≤ B.length) :
    decodeBlock mode (invertAt B q) = (strip mode B, 0) := by
  have hsyn : syndrome (parityCount mode) (invertAt B q) = q := by
    rw [syndrome_invertAt (hB ▸ blockLength_lt_two_pow mode) h1 h2, hcode, Nat.zero_xor]
  rw [decodeBlock_eq, correctedBlock, hsyn, correct_inside h1 (by simpa using h2), invertAt_invertAt h1 h2]

/-! The whole stream. -/

/-- `bits` is as long as the stream of `m`, and every block of it decodes to its chunk. -/
structure DecodesTo (mode : Mode) (m : List Byte) (bits : List Bit) : Prop where
  length : bits.length = blockCount m mode * blockLength mode
  block : ∀ k < blockCount m mode,
    decodeBlock mode (piece bits (blockLength mode) k) = (piece (payload m mode) mode.val k, 0)

section
variable {mode : Mode} {m : List Byte} {bits : List Bit}

theorem DecodesTo.decodedBlocks_eq (h : DecodesTo mode m bits) :
    decodedBlocks bits mode = (List.range (blockCount m mode)).map fun k => (piece (payload m mode) mode.val k, 0) := by
  rw [decodedBlocks, h.length, Nat.mul_div_cancel _ (blockLength_pos mode)]
  exact List.map_congr_left fun k hk => h.block k (List.mem_range.mp hk)

theorem DecodesTo.payload_eq (h : DecodesTo mode m bits) :
    (decodedBlocks bits mode).flatMap Prod.fst = payload m mode := by
  rw [h.decodedBlocks_eq, List.flatMap_map, flatMap_piece, ← length_payload, List.take_length]

theorem DecodesTo.decodeStream_eq (h : DecodesTo mode m bits) :
    decodeStream bits mode = (bytesOfBits (payload m mode), 0) := by
  have hcount : ((decodedBlocks bits mode).map Prod.snd).sum = 0 := by
    simp [h.decodedBlocks_eq, Function.comp_def]
  rw [decodeStream, h.payload_eq, hcount]

end

theorem decodesTo_encodeStream (mode : Mode) (m : List Byte) : DecodesTo mode m (encodeStream m mode) where
  length := length_encodeStream m mode
  block k hk := by
    rw [piece_encodeStream hk, decodeBlock_of_codeword (syndrome_encodeBlock mode _),
      strip_encodeBlock (length_piece_payload hk)]

/-! The message in the payload: the pad gives its whole zero bytes (R159). -/

theorem bytesOfBits_bitsOfBytes_append (m : List Byte) (rest : List Bit) :
    bytesOfBits (bitsOfBytes m ++ rest) = m ++ bytesOfBits rest := by
  induction m with
  | nil => rfl
  | cons x xs ih => rw [bitsOfBytes, List.append_assoc, bytesOfBits_bitsOfByte_append, ih, List.cons_append]

theorem bytesOfBits_zeros (n : Nat) : bytesOfBits (zeros n) = List.replicate (n / 8) 0#8 := by
  induction n using Nat.strongRecOn with
  | ind n ih =>
    obtain hshort | hlong := Nat.lt_or_ge n 8
    · rw [bytesOfBits_of_length_lt (by simpa using hshort), Nat.div_eq_of_lt hshort, List.replicate_zero]
    · obtain ⟨k, rfl⟩ := Nat.exists_eq_add_of_le' hlong
      rw [Nat.add_div_right k (by decide), List.replicate_succ, ← ih k (by omega)]
      rfl

theorem bytesOfBits_payload (m : List Byte) (mode : Mode) :
    bytesOfBits (payload m mode) =
      m ++ List.replicate ((blockCount m mode * mode.val - 8 * m.length) / 8) 0#8 := by
  rw [payload, bytesOfBits_bitsOfBytes_append, bytesOfBits_zeros]

theorem ceildiv_mul_lt (a : Nat) {b : Nat} (hb : 1 ≤ b) : ceildiv a b * b < a + b := by
  have hle := Nat.div_mul_le_self (a + b - 1) b
  rw [ceildiv]
  omega

theorem ceildiv_mul_of_dvd {a b : Nat} (hb : 1 ≤ b) (h : b ∣ a) : ceildiv a b * b = a := by
  obtain ⟨q, rfl⟩ := h
  rw [ceildiv, Nat.add_sub_assoc hb, Nat.mul_add_div hb, Nat.div_eq_of_lt (by omega), Nat.add_zero, Nat.mul_comm]

/-- The pad is shorter than a byte for every mode up to 8 and for a whole number of chunks. -/
theorem bytesOfBits_payload_of_short_pad {m : List Byte} {mode : Mode} (h : mode.val ≤ 8 ∨ mode.val ∣ 8 * m.length) :
    bytesOfBits (payload m mode) = m := by
  have hpad : blockCount m mode * mode.val - 8 * m.length < 8 := by
    rw [blockCount]
    obtain hsmall | hwhole := h
    · have hlt := ceildiv_mul_lt (8 * m.length) mode.property
      omega
    · rw [ceildiv_mul_of_dvd mode.property hwhole]
      omega
  rw [bytesOfBits_payload, Nat.div_eq_of_lt hpad, List.replicate_zero, List.append_nil]

/-- Settles O23: every block of the encoded stream is a codeword of its chunk. -/
theorem roundTripThroughEngine : Obligations.RoundTripThroughEngine := by
  intro s mode hmode hcap
  have hdecodes := decodesTo_encodeStream mode s.mem.msg
  have hmsg := congrArg Prod.fst hdecodes.decodeStream_eq
  exact ⟨_, _, (exec_encode_of_valid s hmode).trans (inCapacity_of hcap), exec_decode_of_valid _ hmode, rfl, rfl,
    congrArg Prod.snd hdecodes.decodeStream_eq, hdecodes.payload_eq, hmsg.trans (bytesOfBits_payload _ mode),
    fun hpad => hmsg.trans (bytesOfBits_payload_of_short_pad hpad)⟩

/-! The single-fault injector (spec/45_host_collaborators.md R194). -/

theorem piece_invertAt_same {a : List Bit} {L k j : Nat} (hj : j < L) :
    piece (invertAt a (k * L + j + 1)) L k = invertAt (piece a L k) (j + 1) := by
  have hbit : bitAt (piece a L k) (j + 1) = bitAt a (k * L + j + 1) := by
    simp [bitAt, List.getD_eq_getElem?_getD, getElem?_piece hj]
  rw [invertAt, invertAt, hbit, setAt, setAt, piece, memRead, List.drop_set, if_neg (by omega), List.take_set]
  simp [piece, memRead]

theorem piece_invertAt_other (a : List Bit) {L i k j : Nat} (hj : j < L) (h : i ≠ k) :
    piece (invertAt a (i * L + j + 1)) L k = piece a L k := by
  refine List.ext_getElem? fun x => ?_
  rw [piece, piece, getElem?_memRead, getElem?_memRead, invertAt, setAt]
  split
  case isFalse => rfl
  case isTrue hx =>
    refine List.getElem?_set_ne ?_
    obtain hlt | hgt := Nat.lt_or_gt_of_ne h
    · have hapart : (i + 1) * L ≤ k * L := Nat.mul_le_mul_right L hlt
      rw [Nat.succ_mul] at hapart
      omega
    · have hapart : (k + 1) * L ≤ i * L := Nat.mul_le_mul_right L hgt
      rw [Nat.succ_mul] at hapart
      omega

/-- The positions that the draws hit in the first `n` blocks. -/
def drawnPositions (L : Nat) (draw : Nat → Nat) (n : Nat) : List Nat :=
  (List.range n).map fun k => k * L + draw k + 1

theorem injectSingleFault_eq (mode : Mode) (draw : Nat → Nat) (bits : List Bit) :
    injectSingleFault mode draw bits =
      invertAll bits (drawnPositions (blockLength mode) draw (bits.length / blockLength mode)) := by
  rw [injectSingleFault, invertAll, drawnPositions, List.foldl_map]

theorem piece_invertAll_drawnPositions {L : Nat} {draw : Nat → Nat} (hdraw : ∀ k, draw k < L) (bits : List Bit)
    (n k : Nat) :
    piece (invertAll bits (drawnPositions L draw n)) L k =
      if k < n then invertAt (piece bits L k) (draw k + 1) else piece bits L k := by
  induction n with
  | zero => rfl
  | succ n ih =>
    have hlast : invertAll bits (drawnPositions L draw (n + 1)) =
        invertAt (invertAll bits (drawnPositions L draw n)) (n * L + draw n + 1) := by
      simp [invertAll, drawnPositions, List.range_succ]
    rw [hlast]
    by_cases hk : n = k
    · subst hk
      rw [piece_invertAt_same (hdraw n), ih, if_neg (Nat.lt_irrefl n), if_pos (Nat.lt_succ_self n)]
    · rw [piece_invertAt_other _ (hdraw n) hk, ih]
      exact if_congr (by omega) rfl rfl

theorem decodesTo_injectSingleFault (mode : Mode) (m : List Byte) {draw : Nat → Nat}
    (hdraw : ∀ k, draw k < blockLength mode) :
    DecodesTo mode m (injectSingleFault mode draw (encodeStream m mode)) where
  length := by rw [injectSingleFault_eq, length_invertAll, length_encodeStream]
  block k hk := by
    have hchunk := length_piece_payload hk
    have hB := length_encodeBlock hchunk
    rw [injectSingleFault_eq, piece_invertAll_drawnPositions hdraw, length_encodeStream,
      Nat.mul_div_cancel _ (blockLength_pos mode), if_pos hk, piece_encodeStream hk,
      decodeBlock_invertAt hB (syndrome_encodeBlock mode _) (Nat.succ_pos _) (hB ▸ hdraw k), strip_encodeBlock hchunk]

/-- Settles O24: every block of the stream is received with exactly one bit inverted. -/
theorem singleFaultPerBlockRecovered : Obligations.SingleFaultPerBlockRecovered := by
  intro s mode draw hmode hcap hdraw
  have hdecodes := decodesTo_injectSingleFault mode s.mem.msg hdraw
  exact ⟨_, _, (exec_encode_of_valid s hmode).trans (inCapacity_of hcap), exec_decode_of_valid _ hmode, rfl,
    congrArg Prod.snd hdecodes.decodeStream_eq, hdecodes.payload_eq,
    fun hpad => (congrArg Prod.fst hdecodes.decodeStream_eq).trans (bytesOfBits_payload_of_short_pad hpad)⟩

end Sys2Proof.Proofs
end

section
/-! The micro-operation sequences (spec/30_encoding.md R89, spec/43_block_codec.md R178): `ENCBLK` and `DECBLK` do one
turn of the loops of `ENCODE` and `DECODE`. -/

namespace Sys2Proof.Proofs
open Sys2Proof.Machine

/-! Sequences. -/

theorem runOk_cons {i : Instr} {is : List Instr} {s t : State} (h : exec i s = .next t) (hok : t.status = .ok) :
    runOk (i :: is) s = runOk is t := by
  simp [runOk, h, hok]

/-- A pseudo-operation that takes each state of a family to the next one, repeated. -/
theorem runOk_timesPseudo {p : Pseudo} (is : List Instr) (n : Nat) (σ : Nat → State)
    (h : ∀ k < n, ∀ js, runOk (p.expand ++ js) (σ k) = runOk js (σ (k + 1))) :
    runOk (timesPseudo n p ++ is) (σ 0) = runOk is (σ n) := by
  induction n generalizing σ with
  | zero => rfl
  | succ n ih =>
    rw [timesPseudo, List.append_assoc, h 0 n.succ_pos, ih (fun k => σ (k + 1)) fun k hk => h (k + 1) (by omega)]

/-- `MODE`, `PCOUNT`, `BLEN` as `SETMODE` writes them. -/
structure ConfiguredFor (s : State) (m : Mode) : Prop where
  mode : s.mode = m.val
  pcount : s.pcount = parityCount m
  blen : s.blen = blockLength m

theorem configuredFor_of_inv {s : State} (hs : s.Inv) (hmode : 1 ≤ s.mode) : ConfiguredFor s ⟨s.mode, hmode⟩ :=
  ⟨rfl, (layout_eq_of_inv hs rfl).2.1, (layout_eq_of_inv hs rfl).2.2⟩

theorem ConfiguredFor.mode_ne_zero {s : State} {m : Mode} (h : ConfiguredFor s m) : s.mode ≠ 0 :=
  h.mode ▸ Nat.ne_of_gt m.property

/-! `ENCBLK`, component by component. -/

section
variable {s : State} {m : Mode}

/-- The chunk that `LDCHUNK` finds at `PRD`. -/
def nextChunk (s : State) (m : Mode) : List Bit := memRead s.mem.pay s.prd m.val

/-- After `LDCHUNK`. -/
def chunkReserved (s : State) (m : Mode) : State :=
  { s with
    blk := blkStore s.blk (blockLength m) (reserve (parityCount m) (nextChunk s m)), prd := s.prd + m.val,
    bstate := .reserved, status := .ok }

/-- After `LDCHUNK` and `SYNW`. -/
def chunkEncoded (s : State) (m : Mode) : State :=
  { chunkReserved s m with blk := blkStore s.blk (blockLength m) (encodeBlock m (nextChunk s m)), bstate := .encoded }

/-- After `ENCBLK`. -/
def afterEncblk (s : State) (m : Mode) : State :=
  { chunkEncoded s m with mem := s.mem.setBits (s.mem.bits ++ encodeBlock m (nextChunk s m)), bstate := .empty }

theorem length_nextChunk (hrun : s.prd + m.val ≤ s.mem.pay.length) : (nextChunk s m).length = m.val := by
  rw [nextChunk, length_memRead]
  omega

theorem exec_ldchunk_configured (hm : ConfiguredFor s m) (hphase : s.bstate = .empty)
    (hrun : s.prd + m.val ≤ s.mem.pay.length) : exec .ldchunk s = .next (chunkReserved s m) := by
  rw [exec_ldchunk_of_empty hm.mode_ne_zero hphase, inSpace_of (hm.mode ▸ hrun), chunkReserved, nextChunk, ← hm.mode,
    ← hm.pcount, ← hm.blen]

theorem exec_synw_chunkReserved (hm : ConfiguredFor s m) (hrun : s.prd + m.val ≤ s.mem.pay.length) :
    exec .synw (chunkReserved s m) = .next (chunkEncoded s m) := by
  have hlen : (reserve (parityCount m) (nextChunk s m)).length = blockLength m :=
    length_reserve (length_nextChunk hrun) le_rfl
  rw [exec_synw_of_reserved (s := chunkReserved s m) hm.mode_ne_zero rfl]
  simp only [chunkReserved, chunkEncoded, State.block, hm.pcount, hm.blen, blkRead_blkStore_of_length _ hlen,
    blkStore_blkStore, encodeBlock]

theorem exec_stblk_chunkEncoded (hm : ConfiguredFor s m) (hrun : s.prd + m.val ≤ s.mem.pay.length)
    (hcap : fitsCap s.params (s.mem.bits.length + blockLength m)) :
    exec .stblk (chunkEncoded s m) = .next (afterEncblk s m) := by
  have hlen := length_encodeBlock (length_nextChunk hrun)
  rw [exec_stblk_of_encoded (s := chunkEncoded s m) hm.mode_ne_zero rfl]
  simp only [chunkReserved, chunkEncoded, afterEncblk, State.block, hm.blen, blkRead_blkStore_of_length _ hlen,
    Memory.appendBits, memWrite_at_end]
  exact inCapacity_of hcap

theorem runOk_encblk (hm : ConfiguredFor s m) (hphase : s.bstate = .empty)
    (hrun : s.prd + m.val ≤ s.mem.pay.length) (hcap : fitsCap s.params (s.mem.bits.length + blockLength m))
    (is : List Instr) : runOk (Pseudo.encblk.expand ++ is) s = runOk is (afterEncblk s m) :=
  calc runOk (Pseudo.encblk.expand ++ is) s
    _ = runOk (.synw :: .stblk :: is) (chunkReserved s m) := runOk_cons (exec_ldchunk_configured hm hphase hrun) rfl
    _ = runOk (.stblk :: is) (chunkEncoded s m) := runOk_cons (exec_synw_chunkReserved hm hrun) rfl
    _ = runOk is (afterEncblk s m) := runOk_cons (exec_stblk_chunkEncoded hm hrun hcap) rfl

theorem sameCellsAbove_afterEncblk (s : State) (m : Mode) : sameCellsAbove (blockLength m) s (afterEncblk s m) :=
  fun q hq => bitAt_blkStore_above s.blk (blockLength m) _ q hq

/-! `DECBLK`, component by component. -/

/-- The block that `LDBLK` finds at `BRD`. -/
def nextBlock (s : State) (m : Mode) : List Bit := memRead s.mem.bits s.brd (blockLength m)

/-- After `LDBLK`. -/
def blockReceived (s : State) (m : Mode) : State :=
  { s with
    blk := blkStore s.blk (blockLength m) (nextBlock s m), brd := s.brd + blockLength m, bstate := .received,
    status := .ok }

/-- After `LDBLK` and `SYNR`. -/
def blockChecked (s : State) (m : Mode) : State :=
  { blockReceived s m with synd := syndrome (parityCount m) (nextBlock s m), bstate := .checked }

/-- After `LDBLK`, `SYNR` and `CORR`. -/
def blockCorrected (s : State) (m : Mode) : State :=
  { blockChecked s m with
    blk := blkStore s.blk (blockLength m) (correctedBlock m (nextBlock s m)),
    uerr := s.uerr + (decodeBlock m (nextBlock s m)).2, bstate := .corrected }

/-- After `DECBLK`. -/
def afterDecblk (s : State) (m : Mode) : State :=
  { blockCorrected s m with
    mem := s.mem.setPay (s.mem.pay ++ (decodeBlock m (nextBlock s m)).1), bstate := .empty }

theorem length_nextBlock (hrun : s.brd + blockLength m ≤ s.mem.bits.length) :
    (nextBlock s m).length = blockLength m := by
  rw [nextBlock, length_memRead]
  omega

theorem exec_ldblk_configured (hm : ConfiguredFor s m) (hphase : s.bstate = .empty)
    (hrun : s.brd + blockLength m ≤ s.mem.bits.length) : exec .ldblk s = .next (blockReceived s m) := by
  rw [exec_ldblk_of_empty hm.mode_ne_zero hphase, inSpace_of (hm.blen ▸ hrun), blockReceived, nextBlock, ← hm.blen]

theorem exec_synr_blockReceived (hm : ConfiguredFor s m) (hrun : s.brd + blockLength m ≤ s.mem.bits.length) :
    exec .synr (blockReceived s m) = .next (blockChecked s m) := by
  rw [exec_synr_of_received (s := blockReceived s m) hm.mode_ne_zero rfl]
  simp only [blockReceived, blockChecked, State.block, hm.pcount, hm.blen,
    blkRead_blkStore_of_length _ (length_nextBlock hrun)]

theorem exec_corr_blockChecked (hm : ConfiguredFor s m) (hrun : s.brd + blockLength m ≤ s.mem.bits.length) :
    exec .corr (blockChecked s m) = .next (blockCorrected s m) := by
  rw [exec_corr_of_checked (s := blockChecked s m) hm.mode_ne_zero rfl]
  simp only [blockReceived, blockChecked, blockCorrected, hm.blen, correctBlk_blkStore _ (length_nextBlock hrun),
    decodeBlock_eq, correctedBlock]

theorem exec_strip_blockCorrected (hm : ConfiguredFor s m) (hrun : s.brd + blockLength m ≤ s.mem.bits.length)
    (hcap : fitsCap s.params (s.mem.pay.length + m.val)) :
    exec .strip (blockCorrected s m) = .next (afterDecblk s m) := by
  have hlen := (length_correctedBlock m _).trans (length_nextBlock hrun)
  rw [exec_strip_of_corrected (s := blockCorrected s m) hm.mode_ne_zero rfl]
  simp only [blockReceived, blockChecked, blockCorrected, afterDecblk, State.block, hm.mode, hm.blen, Subtype.coe_eta,
    blkRead_blkStore_of_length _ hlen, Memory.appendPay, memWrite_at_end, decodeBlock_eq]
  exact inCapacity_of hcap

theorem runOk_decblk (hm : ConfiguredFor s m) (hphase : s.bstate = .empty)
    (hrun : s.brd + blockLength m ≤ s.mem.bits.length) (hcap : fitsCap s.params (s.mem.pay.length + m.val))
    (is : List Instr) : runOk (Pseudo.decblk.expand ++ is) s = runOk is (afterDecblk s m) :=
  calc runOk (Pseudo.decblk.expand ++ is) s
    _ = runOk (.synr :: .corr :: .strip :: is) (blockReceived s m) :=
      runOk_cons (exec_ldblk_configured hm hphase hrun) rfl
    _ = runOk (.corr :: .strip :: is) (blockChecked s m) := runOk_cons (exec_synr_blockReceived hm hrun) rfl
    _ = runOk (.strip :: is) (blockCorrected s m) := runOk_cons (exec_corr_blockChecked hm hrun) rfl
    _ = runOk is (afterDecblk s m) := runOk_cons (exec_strip_blockCorrected hm hrun hcap) rfl

theorem sameCellsAbove_afterDecblk (s : State) (m : Mode) : sameCellsAbove (blockLength m) s (afterDecblk s m) :=
  fun q hq => bitAt_blkStore_above s.blk (blockLength m) _ q hq

end

/-! One block from a state with the invariant. -/

/-- Settles O37: the state after `ENCBLK`, field by field. -/
theorem encblkEncodesChunk : Obligations.EncblkEncodesChunk := by
  intro s hmode hs hphase hrun hcap
  have hm := configuredFor_of_inv hs hmode
  have hrunOk := runOk_encblk hm hphase hrun (hm.blen ▸ hcap) []
  rw [List.append_nil, runOk] at hrunOk
  refine ⟨_, hrunOk, ?_⟩
  simpa [afterEncblk, chunkEncoded, chunkReserved, nextChunk, sameConfig, sameCellsAbove, hm.blen]
    using sameCellsAbove_afterEncblk s ⟨s.mode, hmode⟩

/-- Settles O38: the state after `DECBLK`, field by field. -/
theorem decblkDecodesBlock : Obligations.DecblkDecodesBlock := by
  intro s hmode hs hphase hrun hcap
  have hm := configuredFor_of_inv hs hmode
  have hrunOk := runOk_decblk hm hphase (hm.blen ▸ hrun) hcap []
  rw [List.append_nil, runOk] at hrunOk
  refine ⟨_, hrunOk, ?_⟩
  simpa [afterDecblk, blockCorrected, blockChecked, blockReceived, nextBlock, sameConfig, sameCellsAbove, hm.pcount,
    hm.blen] using sameCellsAbove_afterDecblk s ⟨s.mode, hmode⟩

end Sys2Proof.Proofs
end

section
/-! `ENCODE` and `DECODE` as calls of micro-operations (spec/43_block_codec.md R178): the state after `k` blocks,
which is the state either operation leaves when `k` is the number of blocks. -/

namespace Sys2Proof.Proofs
open Sys2Proof.Machine

theorem storedInTurn_succ (blk : List Bit) (L : Nat) (block : Nat → List Bit) (n : Nat) :
    storedInTurn blk L block (n + 1) = blkStore blk L (block n) := rfl

/-- The engine after `SETMODE`. -/
def afterSetmode (s : State) (m : Mode) : State :=
  { s with
    mode := m.val, pcount := parityCount m, blen := blockLength m, synd := 0, uerr := 0, prd := 0, brd := 0,
    bstate := .empty, mem := { s.mem with pay := [] }, status := .ok }

theorem runOk_setmode (s : State) {m : Mode} (hmode : m.val ≤ s.params.modeMax.val) (is : List Instr) :
    runOk (.setmode m.val :: is) s = runOk is (afterSetmode s m) :=
  runOk_cons (exec_setmode_of_valid s hmode) rfl

theorem mode_ne_zero (m : Mode) : m.val ≠ 0 := Nat.ne_of_gt m.property

/-! `ENCODE`. -/

/-- The engine after `SETMODE`, `UNPACK` and `k` times `ENCBLK`. -/
def encodedSoFar (s : State) (m : Mode) (k : Nat) : State :=
  { s with
    mode := m.val, pcount := parityCount m, blen := blockLength m, synd := 0, uerr := 0, brd := 0,
    mem := ⟨s.mem.msg, payload s.mem.msg m,
      (List.range k).flatMap fun j => encodeBlock m (piece (payload s.mem.msg m) m.val j)⟩,
    blk := storedInTurn s.blk (blockLength m) (fun j => encodeBlock m (piece (payload s.mem.msg m) m.val j)) k,
    prd := k * m.val, bstate := .empty, status := .ok }

theorem exec_encode_eq_encodedSoFar {s : State} {m : Mode} (hmode : m.val ≤ s.params.modeMax.val)
    (hcap : fitsCap s.params (blockCount s.mem.msg m * blockLength m)) :
    exec (.encode (m.val : Int)) s = .next (encodedSoFar s m (blockCount s.mem.msg m)) := by
  rw [exec_encode_of_valid s hmode, encodeStream_eq]
  exact inCapacity_of hcap

theorem exec_unpack_afterSetmode {s : State} {m : Mode} (hcap : fitsCap s.params (blockCount s.mem.msg m * m.val)) :
    exec .unpack (afterSetmode s m) = .next (encodedSoFar s m 0) := by
  rw [exec_unpack_of_empty (s := afterSetmode s m) (mode_ne_zero m) rfl, encodedSoFar, Nat.zero_mul]
  exact inCapacity_of hcap

theorem afterEncblk_encodedSoFar (s : State) (m : Mode) (k : Nat) :
    afterEncblk (encodedSoFar s m k) m = encodedSoFar s m (k + 1) := by
  simp only [afterEncblk, chunkEncoded, chunkReserved, nextChunk, encodedSoFar, blkStore_storedInTurn,
    storedInTurn_succ, Nat.succ_mul, List.range_succ, List.flatMap_append, List.flatMap_singleton, Memory.setBits,
    piece]

theorem runOk_encblk_encodedSoFar {s : State} {m : Mode}
    (hcap : fitsCap s.params (blockCount s.mem.msg m * blockLength m)) {k : Nat} (hk : k < blockCount s.mem.msg m)
    (is : List Instr) :
    runOk (Pseudo.encblk.expand ++ is) (encodedSoFar s m k) = runOk is (encodedSoFar s m (k + 1)) := by
  have hrun : k * m.val + m.val ≤ (payload s.mem.msg m).length := by
    rw [length_payload, ← Nat.succ_mul]
    exact Nat.mul_le_mul_right _ hk
  have hbits : ((List.range k).flatMap fun j => encodeBlock m (piece (payload s.mem.msg m) m.val j)).length =
      k * blockLength m :=
    length_flatMap_range fun j hj => length_encodeBlock (length_piece_payload (hj.trans hk))
  have hroom : (encodedSoFar s m k).mem.bits.length + blockLength m ≤ blockCount s.mem.msg m * blockLength m := by
    rw [encodedSoFar, hbits, ← Nat.succ_mul]
    exact Nat.mul_le_mul_right _ hk
  rw [runOk_encblk ⟨rfl, rfl, rfl⟩ rfl hrun (fitsCap_mono hroom hcap), afterEncblk_encodedSoFar]

/-- Settles O39: each `ENCBLK` of the call is a turn of `ENCODE`'s loop. -/
theorem encodeEqualsMicroCall : Obligations.EncodeEqualsMicroCall := by
  intro s m hmode hcap
  refine ⟨_, exec_encode_eq_encodedSoFar hmode hcap, ?_⟩
  have hpayload := fitsCap_mono (Nat.mul_le_mul_left (blockCount s.mem.msg m) (mode_le_blockLength m)) hcap
  have hloop := runOk_timesPseudo [] (blockCount s.mem.msg m) (encodedSoFar s m) fun k hk js =>
    runOk_encblk_encodedSoFar hcap hk js
  rw [List.append_nil] at hloop
  calc runOk (encodeCall m.val (blockCount s.mem.msg m)) s
    _ = runOk (.unpack :: timesPseudo (blockCount s.mem.msg m) .encblk) (afterSetmode s m) := runOk_setmode s hmode _
    _ = runOk (timesPseudo (blockCount s.mem.msg m) .encblk) (encodedSoFar s m 0) :=
      runOk_cons (exec_unpack_afterSetmode hpayload) rfl
    _ = some (encodedSoFar s m (blockCount s.mem.msg m)) := hloop

/-! `DECODE`. -/

/-- The engine after `SETMODE` and `k` times `DECBLK`. -/
def decodedSoFar (s : State) (m : Mode) (k : Nat) : State :=
  { s with
    mode := m.val, pcount := parityCount m, blen := blockLength m, synd := lastSyndrome m s.mem.bits k,
    uerr := ((firstDecoded m s.mem.bits k).map Prod.snd).sum, prd := 0,
    blk := storedInTurn s.blk (blockLength m) (fun j => correctedBlock m (piece s.mem.bits (blockLength m) j)) k,
    brd := k * blockLength m, mem := ⟨s.mem.msg, (firstDecoded m s.mem.bits k).flatMap Prod.fst, s.mem.bits⟩,
    bstate := .empty, status := .ok }

theorem decodedSoFar_zero (s : State) (m : Mode) : decodedSoFar s m 0 = afterSetmode s m := by
  rw [decodedSoFar, Nat.zero_mul]
  rfl

theorem afterDecblk_decodedSoFar (s : State) (m : Mode) (k : Nat) :
    afterDecblk (decodedSoFar s m k) m = decodedSoFar s m (k + 1) := by
  simp only [afterDecblk, blockCorrected, blockChecked, blockReceived, nextBlock, decodedSoFar, blkStore_storedInTurn,
    storedInTurn_succ, lastSyndrome, firstDecoded_succ, Nat.succ_mul, List.flatMap_append, List.flatMap_singleton,
    List.map_append, List.sum_append, Memory.setPay, piece]
  simp

theorem runOk_decblk_decodedSoFar {s : State} {m : Mode}
    (hcap : fitsCap s.params (s.mem.bits.length / blockLength m * m.val)) {k : Nat}
    (hk : k < s.mem.bits.length / blockLength m) (is : List Instr) :
    runOk (Pseudo.decblk.expand ++ is) (decodedSoFar s m k) = runOk is (decodedSoFar s m (k + 1)) := by
  have hrun : k * blockLength m + blockLength m ≤ s.mem.bits.length := by
    rw [← Nat.succ_mul]
    exact (Nat.mul_le_mul_right _ hk).trans (Nat.div_mul_le_self _ _)
  have hroom : (decodedSoFar s m k).mem.pay.length + m.val ≤ s.mem.bits.length / blockLength m * m.val := by
    rw [decodedSoFar, length_firstDecoded, ← Nat.succ_mul]
    exact Nat.mul_le_mul_right _ hk
  rw [runOk_decblk ⟨rfl, rfl, rfl⟩ rfl hrun (fitsCap_mono hroom hcap), afterDecblk_decodedSoFar]

theorem exec_pack_decodedSoFar {s : State} {m : Mode} (hmode : m.val ≤ s.params.modeMax.val) :
    exec .pack (decodedSoFar s m (s.mem.bits.length / blockLength m)) = exec (.decode (m.val : Int)) s := by
  rw [exec_decode_of_valid s hmode, exec_pack_of_empty (s := decodedSoFar s m _) (mode_ne_zero m) rfl]
  rfl

/-- Settles O40: each `DECBLK` of the call is a turn of `DECODE`'s loop, and `PACK` delivers the bytes. -/
theorem decodeEqualsMicroCall : Obligations.DecodeEqualsMicroCall := by
  intro s m hmode hcap
  have hexec := exec_decode_of_valid s hmode
  refine ⟨_, hexec, ?_⟩
  calc runOk (decodeCall m.val (s.mem.bits.length / blockLength m)) s
    _ = runOk (timesPseudo (s.mem.bits.length / blockLength m) .decblk ++ [Instr.pack]) (decodedSoFar s m 0) :=
      decodedSoFar_zero s m ▸ runOk_setmode s hmode _
    _ = runOk [.pack] (decodedSoFar s m (s.mem.bits.length / blockLength m)) :=
      runOk_timesPseudo [.pack] _ (decodedSoFar s m) fun k hk js => runOk_decblk_decodedSoFar hcap hk js
    _ = some _ := runOk_cons ((exec_pack_decodedSoFar hmode).trans hexec) rfl

end Sys2Proof.Proofs
end

section
/-! What `ENCODE` and `DECODE` take from the old state (spec/10_state.md R34, spec/70_reset_and_hazards.md R241): two
states with one input get one answer, `BLK` aside. -/

namespace Sys2Proof.Proofs
open Sys2Proof.Machine

theorem exec_of_invalidMode {i : Instr} {mode : Int} (hi : HasModeOperand i mode) (h : mode < 1) (s : State) :
    exec i s = .next (s.setStatus .invalidMode) := by
  obtain rfl | rfl | rfl := hi <;> exact withMode_invalid h

theorem exec_of_modeUnsupported {i : Instr} {mode : Int} (hi : HasModeOperand i mode) (h : 1 ≤ mode) {s : State}
    (hmax : (s.params.modeMax.val : Int) < mode) : exec i s = .next (s.setStatus .modeUnsupported) := by
  obtain rfl | rfl | rfl := hi <;> exact withMode_unsupported h hmax

/-- Two answers that are the same fault. -/
theorem agree_of_fault {i : Instr} {s s' t t' : State} {c : Status} (hc : c ≠ .ok) {P : Prop}
    (h : exec i s = .next (s.setStatus c)) (h' : exec i s' = .next (s'.setStatus c)) (ht : exec i s = .next t)
    (ht' : exec i s' = .next t') : t.status = t'.status ∧ (t.status = .ok → P) := by
  obtain rfl := next_unique h ht
  obtain rfl := next_unique h' ht'
  exact ⟨rfl, fun hok => absurd hok hc⟩

/-- Outside the valid modes two states with one `MODE_MAX` get the same fault (spec/30_encoding.md R83). -/
theorem agree_of_modeOperand {i : Instr} {mode : Int} (hi : HasModeOperand i mode) {s s' t t' : State}
    (hparams : s.params = s'.params) {P : Prop} (ht : exec i s = .next t) (ht' : exec i s' = .next t')
    (hvalid : ∀ m : Mode, mode = m.val → m.val ≤ s.params.modeMax.val →
      t.status = t'.status ∧ (t.status = .ok → P)) : t.status = t'.status ∧ (t.status = .ok → P) := by
  obtain hlow | ⟨hlow, hhigh⟩ | ⟨m, hm, hmode⟩ := modeOperand_cases s.params mode
  · exact agree_of_fault (by decide) (exec_of_invalidMode hi hlow s) (exec_of_invalidMode hi hlow s') ht ht'
  · exact agree_of_fault (by decide) (exec_of_modeUnsupported hi hlow hhigh)
      (exec_of_modeUnsupported hi hlow (hparams ▸ hhigh)) ht ht'
  · exact hvalid m hm hmode

/-- Settles O46: both states take the same branch of every check, and what the operation writes is a function of its
operand and of the input space. -/
theorem callsForgetOldState : Obligations.CallsForgetOldState := by
  refine fun mode s s' t t' hparams =>
    ⟨fun hmsg ht ht' => agree_of_modeOperand (.inr (.inl rfl)) hparams ht ht' fun m hm hmode => ?_,
      fun hbits ht ht' => agree_of_modeOperand (.inr (.inr rfl)) hparams ht ht' fun m hm hmode => ?_⟩
  · subst hm
    have hexec := exec_encode_of_valid s hmode
    have hexec' := exec_encode_of_valid s' (hparams ▸ hmode)
    rw [← hmsg] at hexec'
    by_cases hcap : fitsCap s.params (ceildiv (8 * s.mem.msg.length) m.val * blockLength m)
    · obtain rfl := next_unique (hexec.trans (inCapacity_of hcap)) ht
      obtain rfl := next_unique (hexec'.trans (inCapacity_of (hparams ▸ hcap))) ht'
      simp
    · exact agree_of_fault (by decide) (hexec.trans (inCapacity_refuses hcap))
        (hexec'.trans (inCapacity_refuses (hparams ▸ hcap))) ht ht'
  · subst hm
    obtain rfl := next_unique (exec_decode_of_valid s hmode) ht
    obtain rfl := next_unique (exec_decode_of_valid s' (hparams ▸ hmode)) ht'
    simp [hbits]

end Sys2Proof.Proofs
end
